-- ==== Sys2Proof/Config.lean ====
section
/-! DEFINITION. The parameters of the block that the spec fixes (00_scope.md, "Implementation parameters").
No value here is the model's own: the spec leaves no implementation constant and no free value open for this block. -/

namespace Sys2Proof

/-- `MEM_CELLS`: the number of memory cells, addresses 0 to 99 (R6). -/
def Config.memCells : Nat := 100

/-- `WORD_W`: the width of a word in bits (R7, the spec's decision D1). -/
def Config.wordW : Nat := 32

/-- `CTR_W`: the width of the Counter in bits (R8, the spec's decision D6). -/
def Config.ctrW : Nat := 7

/-- The least value a word holds, `-2^(WORD_W-1)` (R11). -/
def Config.wordMin : Int := -2147483648

/-- The greatest value a word holds, `2^(WORD_W-1) - 1` (R11). -/
def Config.wordMax : Int := 2147483647

/-- The greatest value the decoder reads as a three-digit instruction word (R49). -/
def Config.maxInstrWord : Int := 999

end Sys2Proof
end

