-- ==== Sys2Proof/Word.lean ====
section
/-! DEFINITION. The word type and the address type of the block. -/

namespace Sys2Proof

/-- A word: a two's complement signed integer of `WORD_W` = 32 bits (R7). A memory cell, the Accumulator, `IR`, an
Input value, an Output value and a word on `instr_in` are words. -/
abbrev Word := BitVec 32

/-- An address: an unsigned integer of `CTR_W` = 7 bits, the width the spec gives the Counter (R8, R17) and `FPC` (R27).
The address operand of an instruction is held in the same type, and `Instr.wf` says it is in 0 to 99
(DESIGN CHOICE, notes/assumptions/3.md: the spec gives the operand its range and no width). -/
abbrev Addr := BitVec 7

end Sys2Proof
end

