-- ==== Sys2Proof/Syntax.lean ====
section
/-! DEFINITION. The ten instruction kinds (R48, R70; opcode_table.json), one constructor per row of the table. -/

namespace Sys2Proof

/-- The decoded instruction: a tagged value of kind and address (R70). `a` is the address operand of format `OA` (R48,
R50); `halt`, `inp` and `outp` have none (R51, R62). -/
inductive Instr where
  /-- Opcode 0: end the run (R62). -/
  | halt
  /-- Opcode 1: add a cell to the Accumulator (R72). -/
  | add (a : Addr)
  /-- Opcode 2: subtract a cell from the Accumulator (R73). -/
  | sub (a : Addr)
  /-- Opcode 3: store the Accumulator (R74). -/
  | sto (a : Addr)
  /-- Opcode 5: load the Accumulator (R75). -/
  | lda (a : Addr)
  /-- Opcode 6: branch (R77). -/
  | bra (a : Addr)
  /-- Opcode 7: branch if the Accumulator is not positive (R78). -/
  | brz (a : Addr)
  /-- Opcode 8: branch if the Accumulator is not zero (R79). -/
  | brp (a : Addr)
  /-- Word 901: take the next Input value (R80). -/
  | inp
  /-- Word 902: emit the Accumulator (R81). -/
  | outp
  deriving DecidableEq, Repr

end Sys2Proof
end

