-- ==== Sys2Proof/WellFormed.lean ====
section
/-! DEFINITION. Which instruction terms the block has: an address operand names a cell (R50). -/

namespace Sys2Proof

/-- `a` is the address of a memory cell, 0 to 99 (R32, R38). -/
def isCell (a : Addr) : Bool := decide (a.toNat < Config.memCells)

/-- The address operand is the value of two decimal digits, 0 to 99 (R50, R55). -/
def Instr.wf : Instr → Bool
  | .halt => true
  | .add a => isCell a
  | .sub a => isCell a
  | .sto a => isCell a
  | .lda a => isCell a
  | .bra a => isCell a
  | .brz a => isCell a
  | .brp a => isCell a
  | .inp => true
  | .outp => true

end Sys2Proof
end

