-- ==== Sys2Proof/Decode.lean ====
section
/-! DEFINITION. The decoder of R49, total on words and rejecting by name, and the encoder of R55.
The reading is decimal (R10, R48): the opcode is the hundreds digit of the word's value, the operand its last two digits. -/

namespace Sys2Proof

/-- Why a word spells no instruction (R53). -/
inductive IllegalWord where
  /-- The word is below 0. -/
  | negative
  /-- The word is above 999. -/
  | aboveRange
  /-- The word is 400 to 499: opcode 4 has no handler. -/
  | opcodeFour
  /-- The word is 900 or 903 to 999: no key of the 9 family (R51). -/
  | unknownKey
  deriving DecidableEq, Repr

/-- The address operand of a three-digit word: `w mod 100`, used as is (R50). -/
def addressField (n : Nat) : Addr := BitVec.ofNat 7 (n % 100)

/-- The 9 family: the full value is the dispatch key (R51). -/
def decodeNine (n : Nat) : Except IllegalWord Instr :=
  if n = 901 then .ok .inp
  else if n = 902 then .ok .outp
  else .error .unknownKey

/-- A word in 0 to 999, by its hundreds digit `n div 100` (R49). -/
def decodeDigits (n : Nat) : Except IllegalWord Instr :=
  if n / 100 = 0 then .ok .halt
  else if n / 100 = 1 then .ok (.add (addressField n))
  else if n / 100 = 2 then .ok (.sub (addressField n))
  else if n / 100 = 3 then .ok (.sto (addressField n))
  else if n / 100 = 4 then .error .opcodeFour
  else if n / 100 = 5 then .ok (.lda (addressField n))
  else if n / 100 = 6 then .ok (.bra (addressField n))
  else if n / 100 = 7 then .ok (.brz (addressField n))
  else if n / 100 = 8 then .ok (.brp (addressField n))
  else decodeNine n

/-- `decode` of R49. The comparisons with 0 and 999 are signed (R10). -/
def decode (w : Word) : Except IllegalWord Instr :=
  if w.toInt < 0 then .error .negative
  else if w.toInt > Config.maxInstrWord then .error .aboveRange
  else decodeDigits w.toNat

/-- `enc` of R55: the canonical word of an instruction. The words 1 to 99 also decode as `halt`; 0 is the canonical one. -/
def encode : Instr → Word
  | .halt => 0
  | .add a => BitVec.ofNat 32 (100 + a.toNat)
  | .sub a => BitVec.ofNat 32 (200 + a.toNat)
  | .sto a => BitVec.ofNat 32 (300 + a.toNat)
  | .lda a => BitVec.ofNat 32 (500 + a.toNat)
  | .bra a => BitVec.ofNat 32 (600 + a.toNat)
  | .brz a => BitVec.ofNat 32 (700 + a.toNat)
  | .brp a => BitVec.ofNat 32 (800 + a.toNat)
  | .inp => 901
  | .outp => 902

/-- An instruction word of `nbits` bits given as a number, as the opcode table gives it, in a whole word. The spec gives an
instruction no bit layout (R34): bit 0 of the number is the least significant bit of the word's binary value, and the
bits above `nbits` are 0. -/
def tableWord (nbits w : Nat) : Word := BitVec.ofNat 32 (w % 2 ^ nbits)

/-- What the decoder reads from an instruction whose bits are `w`. -/
def decodeTableWord (nbits w : Nat) : Option Instr :=
  match decode (tableWord nbits w) with
  | .ok i => some i
  | .error _ => none

end Sys2Proof
end

