-- ==== Sys2Proof/Machine/State.lean ====
section
/-! DEFINITION. The state of one run (R14), as plain data; the reasons a step can stop; the state after reset (R110). -/

namespace Sys2Proof.Machine

/-- The Mode register (R21). -/
inductive Mode where
  /-- `MEM`, Memory-driven: fetch from memory. -/
  | mem
  /-- `CLI`, CLI-interactive: take one instruction word a cycle from the host. -/
  | cli
  /-- `DEBUG`: fetch from memory and hold at a debugger prompt before every instruction. -/
  | debug
  deriving DecidableEq, Repr

/-- The control state: the position in the cycle (R28). -/
inductive Ctl where
  /-- `FETCH`: about to fetch. -/
  | fetch
  /-- `CLI_WAIT`: holding for an instruction word from the host. -/
  | cliWait
  /-- `DBG_WAIT`: holding for a debugger command. -/
  | dbgWait
  /-- `EXEC`: word latched, about to decode and dispatch. -/
  | exec
  /-- `DONE`: the run has ended. -/
  | done
  deriving DecidableEq, Repr

/-- The outcome register (R29). -/
inductive RunOutcome where
  /-- The run has not ended. -/
  | running
  /-- Raised by the halt instruction (R91). -/
  | halted
  /-- Raised when the Counter passes cell 99 outside `CLI` mode (R92). -/
  | overflow
  /-- Raised by the debugger's `QUIT` (R93). -/
  | terminated
  /-- Raised at dispatch by a word that spells no instruction (R94). -/
  | illegalInstruction
  /-- Raised by ADD or SUB when the exact result is no word (R95). -/
  | arithOverflow
  /-- Reserved: no rule raises it (R97). -/
  | addressOutOfRange
  deriving DecidableEq, Repr

/-- A debugger command on `dbg_cmd` (R31). -/
inductive DbgCmd where
  /-- `STEP` (`s`), R84. -/
  | step
  /-- `CONT` (`c`), R85. -/
  | cont
  /-- `QUIT` (`q`), R86. -/
  | quit
  /-- `HELP` (`h`), R87. -/
  | help
  /-- `OTHER` (anything else), R88. -/
  | other
  deriving DecidableEq, Repr

/-- Memory, as (address, word) pairs: addresses strictly rising and no entry equal to what an unlisted cell holds
(`Mem.wf`). A cell is one word, the block's only unit of access (R32). -/
abbrev Mem := List (Nat × Word)

/-- The whole state. The first ten fields are the tuple of R14. `instrIn` and `dbgCmd` are the model's own: what the host
has put on those two interfaces and the block has not taken yet, oldest first (DESIGN CHOICE, notes/assumptions/1.md). -/
structure State where
  /-- `Acc`, the Accumulator (R15). -/
  acc : Word
  /-- `pc`, the Counter (R17). -/
  pc : Addr
  /-- `Mem`, the 100 cells (R23). -/
  mem : Mem
  /-- `In`, the Input queue, front first (R24). -/
  input : List Word
  /-- `Out`, the Output sequence, oldest first (R25). -/
  output : List Word
  /-- `mode` (R21). -/
  mode : Mode
  /-- `IR`, the fetched word (R27). -/
  ir : Word
  /-- `FPC`, the fetch address (R27). -/
  fpc : Addr
  /-- `ctl` (R28). -/
  ctl : Ctl
  /-- `outcome` (R29). -/
  outcome : RunOutcome
  /-- Words offered on `instr_in` (R31) and not taken yet. -/
  instrIn : List Word
  /-- Commands offered on `dbg_cmd` (R31) and not taken yet. -/
  dbgCmd : List DbgCmd
  deriving DecidableEq, Repr

/-- The faults of the model. Every exceptional event the spec describes is an outcome of the run, a next state with the
outcome register written (R96, R102), and no fault. -/
inductive Fault where
  /-- An access, fetch or branch to an address 100 to 127, where the spec has no cell (R38, R40). Raised by `fetch` in a
  state no run reaches (`Sound` rules it out) and by the meanings on an ill-formed operand, which no word decodes to. Safe:
  the machine stops where the spec gives no behaviour (notes/assumptions/4.md). -/
  | noSuchCell (a : Nat)
  deriving DecidableEq, Repr

/-- The refusals of the model. -/
inductive Refusal where
  /-- An instruction with no meaning in the model, by its mnemonic. No arm of `exec` answers it. Safe. -/
  | notModelled (mnemonic : String)
  deriving DecidableEq, Repr

/-- What one step or one meaning answers. -/
abbrev Result := Host.Outcome State Fault Refusal

/-- Reset (R110) with no program, an empty Input list and start mode `MEM`, which is what the host supplies when it gives
no flags (R112: "No flags ⇒ Memory-driven execution with empty Input"; notes/assumptions/2.md). -/
def State.reset : State where
  acc := 0
  pc := 0
  mem := []
  input := []
  output := []
  mode := .mem
  ir := 0
  fpc := 0
  ctl := .fetch
  outcome := .running
  instrIn := []
  dbgCmd := []

end Sys2Proof.Machine
end

