-- ==== Sys2Proof/Machine/Ops.lean ====
section
/-! DEFINITION. The named operations over memory and registers, and `raise`, the one way a run ends (R12, R96). The block
has no trap entry and no return from one (R102, R103): `State.raise` is all that an exceptional event does. -/

namespace Sys2Proof.Machine

/-- What a cell that is not listed holds: 0, the value of every cell the load does not fill (R41). -/
def Mem.unlisted : Word := 0

/-- The word in cell `a`, `MemRead(a, 1)` of R12. -/
def Mem.read : Mem → Nat → Word
  | [], _ => Mem.unlisted
  | (b, u) :: m, a => if b = a then u else Mem.read m a

/-- The memory without any entry for cell `a`. -/
def Mem.erase : Mem → Nat → Mem
  | [], _ => []
  | (b, u) :: m, a => if b = a then Mem.erase m a else (b, u) :: Mem.erase m a

/-- The memory with an entry for cell `a` put before the first higher address. -/
def Mem.insert : Mem → Nat → Word → Mem
  | [], a, v => [(a, v)]
  | (b, u) :: m, a, v => if a < b then (a, v) :: (b, u) :: m else (b, u) :: Mem.insert m a v

/-- Cell `a` gets word `v`, `MemWrite(a, 1, v)` of R12; the list stays canonical (`Mem.wf_write`). -/
def Mem.write (m : Mem) (a : Nat) (v : Word) : Mem :=
  if v = Mem.unlisted then Mem.erase m a else Mem.insert (Mem.erase m a) a v

/-- The entries are canonical from address `lo` on: rising, each a cell, none equal to what an unlisted cell holds. -/
def Mem.wfFrom : Nat → Mem → Bool
  | _, [] => true
  | lo, (b, u) :: m =>
    decide (lo ≤ b) && decide (b < Config.memCells) && decide (u ≠ Mem.unlisted) && Mem.wfFrom (b + 1) m

/-- The canonical form of memory: equal memories are equal lists. -/
def Mem.wf (m : Mem) : Bool := Mem.wfFrom 0 m

/-- `Acc <- v` (R12). -/
def State.setAcc (s : State) (v : Word) : State := { s with acc := v }

/-- `pc <- p` (R12). -/
def State.setPc (s : State) (p : Addr) : State := { s with pc := p }

/-- The state with memory `m`. -/
def State.setMem (s : State) (m : Mem) : State := { s with mem := m }

/-- `In <- l` (R12). -/
def State.setInput (s : State) (l : List Word) : State := { s with input := l }

/-- `Out <- Out ++ [v]` (R12). -/
def State.emit (s : State) (v : Word) : State := { s with output := s.output ++ [v] }

/-- `mode <- m`. -/
def State.setMode (s : State) (m : Mode) : State := { s with mode := m }

/-- `ctl <- c`. -/
def State.setCtl (s : State) (c : Ctl) : State := { s with ctl := c }

/-- `FPC <- pc; IR <- w`: what every fetch writes (R27, R58, R59). -/
def State.latch (s : State) (w : Word) : State := { s with ir := w, fpc := s.pc }

/-- The words on `instr_in` are `l`. -/
def State.setInstrIn (s : State) (l : List Word) : State := { s with instrIn := l }

/-- The commands on `dbg_cmd` are `l`. -/
def State.setDbgCmd (s : State) (l : List DbgCmd) : State := { s with dbgCmd := l }

/-- `raise o`: the outcome register gets `o`, the control state becomes `DONE`, nothing else changes (R12, R96). -/
def State.raise (s : State) (o : RunOutcome) : State := { s with outcome := o, ctl := .done }

/-- The Counter advance, `pc <- (pc + 1) mod 2^CTR_W` (R63); addition on 7 bits wraps at 128. -/
def State.advance (s : State) : State := s.setPc (s.pc + 1)

/-- `ctl <- FETCH`, only if nothing was raised (R65). -/
def State.endCycle (s : State) : State := if s.ctl = .done then s else s.setCtl .fetch

/-- `f` on the next state; a fault or a refusal stays as it is. -/
def andThen (r : Result) (f : State → Result) : Result :=
  match r with
  | .next s => f s
  | .fault e => .fault e
  | .refused e => .refused e

/-- The next state of a result, if it is one. -/
def nextOf (r : Result) : Option State :=
  match r with
  | .next s => some s
  | .fault _ => none
  | .refused _ => none

end Sys2Proof.Machine
end

