-- ==== Sys2Proof/Machine/Debugger.lean ====
section
/-! DEFINITION. The debugger sequencer (45_debugger.md): what one command does at the prompt. -/

namespace Sys2Proof.Machine

/-- One command in `DBG_WAIT` (R84 to R88); it changes only `mode`, and on `QUIT` `outcome`, and `ctl` (R26). -/
def debuggerCommand (c : DbgCmd) (s : State) : State :=
  match c with
  | .step => s.setCtl .exec
  | .cont => (s.setMode .mem).setCtl .exec
  | .quit => s.raise .terminated
  | .help => s
  | .other => s

/-- The debugger intercept: take one command, or hold with no state change while there is none (R60, R66, R82). -/
def debuggerTurn (s : State) : State :=
  match s.dbgCmd with
  | [] => s
  | c :: rest => debuggerCommand c (s.setDbgCmd rest)

end Sys2Proof.Machine
end

