-- ==== Sys2Proof/Machine/Flags.lean ====
section
/-! DEFINITION. The block has no flags and no condition codes (R20). What other machines keep in flags is here: the test
that a result is a word, and the branch conditions, which read the Accumulator itself. -/

namespace Sys2Proof.Machine

/-- `repr(v)`: the exact integer `v` is the value of a word (R11). -/
def representable (v : Int) : Bool := decide (Config.wordMin ≤ v) && decide (v ≤ Config.wordMax)

/-- The condition of BRZ, `Acc <= 0`, a signed comparison (R78). -/
def notPositive (v : Word) : Bool := decide (v.toInt ≤ 0)

/-- The condition of BRP, `Acc != 0` (R79). -/
def notZero (v : Word) : Bool := decide (v ≠ 0)

end Sys2Proof.Machine
end

