-- ==== Sys2Proof/Machine/Operands.lean ====
section
/-! DEFINITION. The one operand form of the ISA, a direct cell address (R50): read as data, written as data, or taken as a
branch target. An operand that names no cell faults; no word decodes to one. -/

namespace Sys2Proof.Machine

/-- `k` on the word in cell `a` (R72, R73, R75). -/
def withCell (a : Addr) (s : State) (k : Word → Result) : Result :=
  if isCell a then k (s.mem.read a.toNat) else .fault (.noSuchCell a.toNat)

/-- Cell `a` gets `v` (R74). -/
def storeCell (a : Addr) (v : Word) (s : State) : Result :=
  if isCell a then .next (s.setMem (s.mem.write a.toNat v)) else .fault (.noSuchCell a.toNat)

/-- `pc <- a` if `taken`, else nothing (R76). -/
def branchIf (taken : Bool) (a : Addr) (s : State) : Result :=
  if isCell a then .next (if taken then s.setPc a else s) else .fault (.noSuchCell a.toNat)

end Sys2Proof.Machine
end

