-- ==== Sys2Proof/Machine/Arith.lean ====
section
/-! DEFINITION. ADD and SUB (41_arithmetic.md): the exact integer result, written if it is a word. -/

namespace Sys2Proof.Machine

/-- The exact result `v` goes to `Acc` if it is a word; else nothing is written and the run ends with
`ARITH_OVERFLOW` (R71, R95). -/
def accumulate (v : Int) (s : State) : Result :=
  if representable v then .next (s.setAcc (BitVec.ofInt 32 v)) else .next (s.raise .arithOverflow)

/-- ADD: `Acc + Mem[a]` (R72). -/
def execAdd (a : Addr) (s : State) : Result :=
  withCell a s fun m => accumulate (s.acc.toInt + m.toInt) s

/-- SUB: `Acc - Mem[a]`, never the other way round (R73). -/
def execSub (a : Addr) (s : State) : Result :=
  withCell a s fun m => accumulate (s.acc.toInt - m.toInt) s

end Sys2Proof.Machine
end

