-- ==== Sys2Proof/Machine/Branch.lean ====
section
/-! DEFINITION. BRA, BRZ and BRP (43_branch.md). `pc` already holds the fetch address plus 1 when they run (R13, R116). -/

namespace Sys2Proof.Machine

/-- BRA: unconditional (R77). -/
def execBra (a : Addr) (s : State) : Result := branchIf true a s

/-- BRZ: taken when `Acc <= 0` (R78). -/
def execBrz (a : Addr) (s : State) : Result := branchIf (notPositive s.acc) a s

/-- BRP: taken when `Acc != 0` (R79). -/
def execBrp (a : Addr) (s : State) : Result := branchIf (notZero s.acc) a s

end Sys2Proof.Machine
end

