-- ==== Sys2Proof/Machine/Halt.lean ====
section
/-! DEFINITION. The halt instruction, which the engine handles itself before the Counter advance (R62). -/

namespace Sys2Proof.Machine

/-- HALT: `raise HALTED` (R62). The cycle runs it on the state in which `pc` is not advanced. -/
def execHalt (s : State) : Result := .next (s.raise .halted)

end Sys2Proof.Machine
end

