-- ==== Sys2Proof/Machine/InOut.lean ====
section
/-! DEFINITION. INP and OUTP (44_io.md). -/

namespace Sys2Proof.Machine

/-- INP: the front of `In` moves to `Acc`; an empty `In` leaves everything as it is and does not hold (R80, R99). -/
def execInp (s : State) : Result :=
  match s.input with
  | [] => .next s
  | v :: rest => .next ((s.setAcc v).setInput rest)

/-- OUTP: `Acc` is appended to `Out` (R81); the host always accepts it, so OUTP never waits. -/
def execOutp (s : State) : Result := .next (s.emit s.acc)

end Sys2Proof.Machine
end

