-- ==== Sys2Proof/Machine/LoadStore.lean ====
section
/-! DEFINITION. STO and LDA (42_load_store.md). -/

namespace Sys2Proof.Machine

/-- STO: the whole word in `Acc` goes to cell `a` (R74). -/
def execSto (a : Addr) (s : State) : Result := storeCell a s.acc s

/-- LDA: the whole word of cell `a` goes to `Acc` (R75). -/
def execLda (a : Addr) (s : State) : Result := withCell a s fun m => .next (s.setAcc m)

end Sys2Proof.Machine
end

