-- ==== Sys2Proof/Machine/Dispatch.lean ====
section
/-! DEFINITION. The dispatch table of R65 and R70: one handler per instruction kind. -/

namespace Sys2Proof.Machine

def exec (i : Instr) (s : State) : Host.Outcome State Fault Refusal :=
  match i with
  | .halt => Sys2Proof.Machine.execHalt s
  | .add a => Sys2Proof.Machine.execAdd a s
  | .sub a => Sys2Proof.Machine.execSub a s
  | .sto a => Sys2Proof.Machine.execSto a s
  | .lda a => Sys2Proof.Machine.execLda a s
  | .bra a => Sys2Proof.Machine.execBra a s
  | .brz a => Sys2Proof.Machine.execBrz a s
  | .brp a => Sys2Proof.Machine.execBrp a s
  | .inp => Sys2Proof.Machine.execInp s
  | .outp => Sys2Proof.Machine.execOutp s

end Sys2Proof.Machine
end

