-- ==== Sys2Proof/Machine/Cycle.lean ====
section
/-! DEFINITION. The fetch-decode-dispatch cycle (40_cycle.md) and the control state machine of R66. -/

namespace Sys2Proof.Machine

/-- Where the fetch leads: to the debugger's prompt in `DEBUG` mode, else to execution (R58). -/
def afterFetch (m : Mode) : Ctl :=
  match m with
  | .mem => .exec
  | .cli => .exec
  | .debug => .dbgWait

/-- Step 1 in `MEM` and `DEBUG` mode: latch the word at `pc` (R58). -/
def fetch (s : State) : Result :=
  if isCell s.pc then .next ((s.latch (s.mem.read s.pc.toNat)).setCtl (afterFetch s.mode))
  else .fault (.noSuchCell s.pc.toNat)

/-- Step 1 in `CLI` mode, in `CLI_WAIT`: latch the word the host delivers, or hold with no state change while there is none
(R59, R66). -/
def takeWord (s : State) : State :=
  match s.instrIn with
  | [] => s
  | w :: rest => ((s.setInstrIn rest).latch w).setCtl .exec

/-- The `FETCH` rows of R66, by mode. -/
def beginCycle (s : State) : Result :=
  match s.mode with
  | .mem => fetch s
  | .debug => fetch s
  | .cli => .next (s.setCtl .cliWait)

/-- The condition of the overflow check, on the state after the advance (R64). -/
def overflowed (s : State) : Bool := decide (s.mode ≠ .cli) && decide (s.pc.toNat > 99)

/-- Steps 5 and 6 and then `handler`: the Counter advance, the overflow check, and step 7 on the advanced state
(R63 to R65). -/
def advanceThen (handler : State → Result) (s : State) : Result :=
  if overflowed s.advance then .next (s.advance.raise .overflow) else handler s.advance

/-- Step 7 for a decoded instruction: its handler, and then `ctl <- FETCH` if nothing was raised (R65). -/
def dispatch (i : Instr) (s : State) : Result := andThen (exec i s) fun t => .next t.endCycle

/-- Steps 3 to 7 on the latched word: decode, halt check, advance, overflow check, dispatch (R61 to R65). An illegal word
is found at the dispatch (R65, R94). -/
def execute (s : State) : Result :=
  match decode s.ir with
  | .error _ => advanceThen (fun t => .next (t.raise .illegalInstruction)) s
  | .ok i => if i = .halt then exec .halt s else advanceThen (dispatch i) s

/-- One row of the table of R66. -/
def transition (s : State) : Result :=
  match s.ctl with
  | .fetch => beginCycle s
  | .cliWait => .next (takeWord s)
  | .dbgWait => .next (debuggerTurn s)
  | .exec => execute s
  | .done => .next s

/-- One step: one row of R66, and with a row that leads to `EXEC` the `EXEC` row at once, since a cycle is atomic apart from
its two holds (R120; DEDUCED, notes/assumptions/5.md). -/
def cycleStep (s : State) : Result :=
  andThen (transition s) fun t => if t.ctl = .exec then execute t else .next t

end Sys2Proof.Machine
end

