-- ==== Sys2Proof/Machine/Step.lean ====
section
/-! DEFINITION. The step of the machine, and the placing of an instruction where the next step takes it. -/

namespace Sys2Proof.Machine

/-- One step of the machine: `cycleStep`. -/
def step (s : State) : Host.Outcome State Fault Refusal := cycleStep s

/-- The cell an instruction placed from outside goes to: the one at `pc`, or cell 0 where `pc` names no cell or names cell
99, from which no instruction but HALT is ever run (R118). -/
def placingAddr (pc : Addr) : Addr := if pc.toNat < 99 then pc else 0

/-- `s` with an instruction word stored where the next step takes its instruction and runs it: in `MEM` mode the cell at
`pc`; in `CLI` mode the front of `instr_in`, at the hold; in `DEBUG` mode the cell at `pc`, fetched and held at the
debugger's prompt with a `STEP` command on offer. This stands for the load and the host's deliveries
(notes/assumptions/2.md). -/
def State.withFetchWord (s : State) (nbits w : Nat) : State :=
  match s.mode with
  | .mem =>
    { s with
      pc := placingAddr s.pc
      mem := s.mem.write (placingAddr s.pc).toNat (tableWord nbits w)
      ctl := .fetch
      outcome := .running }
  | .cli =>
    { s with
      instrIn := tableWord nbits w :: s.instrIn
      ctl := .cliWait
      outcome := .running }
  | .debug =>
    { s with
      pc := placingAddr s.pc
      mem := s.mem.write (placingAddr s.pc).toNat (tableWord nbits w)
      ir := tableWord nbits w
      fpc := placingAddr s.pc
      dbgCmd := .step :: s.dbgCmd
      ctl := .dbgWait
      outcome := .running }

end Sys2Proof.Machine
end

