-- ==== Sys2Proof/Machine/HostPort.lean ====
section
/-! DEFINITION. The block's external interfaces (R31): the codes on them, the load before a run (R41, R42, R111), the
host's deliveries, the output port and the view. -/

namespace Sys2Proof.Machine

/-- The 2-bit code of a mode (R21). -/
def Mode.code : Mode → BitVec 2
  | .mem => 0
  | .cli => 1
  | .debug => 2

/-- The mode of a 2-bit code; 3 is not a mode (R21). -/
def Mode.ofCode (c : BitVec 2) : Option Mode :=
  if c = 0 then some .mem else if c = 1 then some .cli else if c = 2 then some .debug else none

/-- The code of a control state (R28). The spec gives the codes 0 to 4 and no width; 3 bits are the model's (DESIGN CHOICE,
notes/assumptions/12.md). -/
def Ctl.code : Ctl → BitVec 3
  | .fetch => 0
  | .cliWait => 1
  | .dbgWait => 2
  | .exec => 3
  | .done => 4

/-- The 3-bit code of an outcome (R29). -/
def RunOutcome.code : RunOutcome → BitVec 3
  | .running => 0
  | .halted => 1
  | .overflow => 2
  | .terminated => 3
  | .illegalInstruction => 4
  | .arithOverflow => 5
  | .addressOutOfRange => 6

/-- The 3-bit code of a debugger command (R31). -/
def DbgCmd.code : DbgCmd → BitVec 3
  | .step => 0
  | .cont => 1
  | .quit => 2
  | .help => 3
  | .other => 4

/-- The command of a 3-bit code: `OTHER` is anything else (R31; DEDUCED for the codes 5 to 7, which the spec does not list,
notes/assumptions/11.md). -/
def DbgCmd.ofCode (c : BitVec 3) : DbgCmd :=
  if c = 0 then .step else if c = 1 then .cont else if c = 2 then .quit else if c = 3 then .help else .other

/-- Why a load is refused, no run starting (R42). Text that does not parse is the host's and never reaches the block. -/
inductive LoadRefusal where
  /-- The program has more than 100 words. -/
  | programTooLong
  /-- A program word does not satisfy `repr`. -/
  | programWordOutOfRange
  /-- An Input value does not satisfy `repr`. -/
  | inputOutOfRange
  /-- The start mode code is 3. -/
  | startModeInvalid
  deriving DecidableEq, Repr

/-- `Mem[i] <- P[i]` from cell `i` on (R41). -/
def Mem.fill : Nat → List Word → Mem → Mem
  | _, [], m => m
  | i, v :: rest, m => Mem.fill (i + 1) rest (m.write i v)

/-- The words of a list of integers, each of which satisfies `repr`. -/
def toWords (l : List Int) : List Word := l.map (BitVec.ofInt 32)

/-- The state in which a run starts: reset (R110), then `load_prog`, `load_input` and `start_mode` (R111). When several
refusals apply, the one reported is the first in the order below (DESIGN CHOICE, notes/assumptions/6.md). -/
def load (prog : List Int) (inputs : List Int) (startMode : BitVec 2) : Except LoadRefusal State :=
  if prog.length > Config.memCells then .error .programTooLong
  else if prog.all representable = false then .error .programWordOutOfRange
  else if inputs.all representable = false then .error .inputOutOfRange
  else
    match Mode.ofCode startMode with
    | none => .error .startModeInvalid
    | some m =>
      .ok { State.reset with mem := Mem.fill 0 (toWords prog) [], input := toWords inputs, mode := m }

/-- The host offers words on `instr_in`, after those it offered before (R31, R115). -/
def State.offerWords (s : State) (ws : List Word) : State := s.setInstrIn (s.instrIn ++ ws)

/-- The host offers commands on `dbg_cmd`, after those it offered before (R31, R115). -/
def State.offerCmds (s : State) (cs : List DbgCmd) : State := s.setDbgCmd (s.dbgCmd ++ cs)

/-- What a step from `s` to `t` presents on the `out` interface: the words it appended to `Out` (R31, R81). -/
def presented (s t : State) : List Word := t.output.drop s.output.length

/-- The read-only copy of the state on the `view` interface (R31). -/
structure View where
  /-- The 100 cells, cell 0 first. -/
  cells : List Word
  /-- The Counter; the cell at it is the current position (R83). -/
  pc : Addr
  /-- The Accumulator. -/
  acc : Word
  /-- The remaining Input queue. -/
  input : List Word
  /-- The Output so far. -/
  output : List Word
  /-- The mode. -/
  mode : Mode
  /-- The fetched word. -/
  ir : Word
  /-- The fetch address. -/
  fpc : Addr
  /-- The control state. -/
  ctl : Ctl
  /-- The outcome. -/
  outcome : RunOutcome
  deriving DecidableEq, Repr

/-- The view of a state, at any time (R31). -/
def State.view (s : State) : View where
  cells := (List.range Config.memCells).map s.mem.read
  pc := s.pc
  acc := s.acc
  input := s.input
  output := s.output
  mode := s.mode
  ir := s.ir
  fpc := s.fpc
  ctl := s.ctl
  outcome := s.outcome

/-- Cell `a` is the marked current position of a view (R83). -/
def View.isCurrent (v : View) (a : Nat) : Bool := decide (v.pc.toNat = a)

/-- What the block presents at a debugger prompt: the view, in every state that is held at `DBG_WAIT`, hence at entry and
after each `HELP` or `OTHER` (R83). -/
def State.promptView (s : State) : Option View := if s.ctl = .dbgWait then some s.view else none

/-- A run has ended (R114). -/
def State.ended (s : State) : Bool := decide (s.ctl = .done)

end Sys2Proof.Machine
end

