-- ==== Sys2Proof/Safety.lean ====
section
/-! DEFINITION. What counts as a sound state of a run, and the states a run is made of, in the terms the statements use. -/

namespace Sys2Proof.Machine

/-- The invariant of a run: what the spec says of every state between two steps. -/
structure Sound (s : State) : Prop where
  /-- Memory is in its canonical form, 100 cells and no more (R32). -/
  memory : s.mem.wf = true
  /-- `outcome != RUNNING` exactly when `ctl = DONE` (R29, R114). -/
  ended : s.ctl = .done ↔ s.outcome ≠ .running
  /-- Outcome code 6 is never raised (R97). -/
  reserved : s.outcome ≠ .addressOutOfRange
  /-- Outside `CLI` mode `pc` is in 0 to 99, or it is 100 and the run has ended with `OVERFLOW` (R18). -/
  counter : s.mode ≠ .cli → s.pc.toNat ≤ 99 ∨ (s.pc.toNat = 100 ∧ s.outcome = .overflow)
  /-- The hold for an instruction word is of `CLI` mode only (R66). -/
  cliHold : s.ctl = .cliWait → s.mode = .cli
  /-- The hold for a command is of `DEBUG` mode only, with `pc = FPC` and `IR` the word fetched there (R82). -/
  dbgHold : s.ctl = .dbgWait → s.mode = .debug ∧ s.pc = s.fpc ∧ s.ir = s.mem.read s.fpc.toNat
  /-- A latched word that is not yet decoded was fetched at `pc` (R58, R59), outside `CLI` mode from memory. -/
  latched : s.ctl = .exec → s.pc = s.fpc ∧ (s.mode ≠ .cli → s.ir = s.mem.read s.fpc.toNat)
  /-- What `HALTED` leaves: the halt word and its address (R91, R100). -/
  halted : s.outcome = .halted →
    s.pc = s.fpc ∧ decode s.ir = .ok .halt ∧ (s.mode ≠ .cli → s.ir = s.mem.read s.fpc.toNat)
  /-- What `OVERFLOW` leaves: the word of cell 99, no halt word, and 99 (R92, R100). -/
  overflow : s.outcome = .overflow →
    s.mode ≠ .cli ∧ s.pc = 100 ∧ s.fpc = 99 ∧ s.ir = s.mem.read 99 ∧ decode s.ir ≠ .ok .halt
  /-- What `TERMINATED` leaves: the fetched word and its address (R93, R100). -/
  terminated : s.outcome = .terminated →
    s.mode = .debug ∧ s.pc = s.fpc ∧ s.ir = s.mem.read s.fpc.toNat
  /-- What `ILLEGAL_INSTRUCTION` leaves: the illegal word and its address (R94, R100). -/
  illegal : s.outcome = .illegalInstruction →
    s.pc = s.fpc + 1 ∧ (∃ e, decode s.ir = .error e) ∧ (s.mode ≠ .cli → s.ir = s.mem.read s.fpc.toNat)
  /-- What `ARITH_OVERFLOW` leaves: the ADD or SUB word and its address (R95, R100). -/
  arith : s.outcome = .arithOverflow →
    s.pc = s.fpc + 1 ∧ (∃ a, decode s.ir = .ok (.add a) ∨ decode s.ir = .ok (.sub a)) ∧
      (s.mode ≠ .cli → s.ir = s.mem.read s.fpc.toNat)

/-- `k` steps, stopping at a fault or a refusal. It is the host's `Core.run` on this machine (`core_run_eq`). -/
def run : Nat → State → Result
  | 0, s => .next s
  | k + 1, s => andThen (step s) (run k)

/-- A state about to fetch from memory in `MEM` mode, `pc` naming cell `f`, whose word is `w`. -/
def AtFetch (s : State) (f : Addr) (w : Word) : Prop :=
  s.ctl = .fetch ∧ s.mode = .mem ∧ s.pc = f ∧ isCell f = true ∧ s.mem.read f.toNat = w

/-- A word that spells no instruction, by its value (R53). -/
def IsIllegal (w : Word) : Prop :=
  w.toInt < 0 ∨ 999 < w.toInt ∨ (400 ≤ w.toInt ∧ w.toInt ≤ 499) ∨ w.toInt = 900 ∨
    (903 ≤ w.toInt ∧ w.toInt ≤ 999)

/-- The exact integer `v` is the value of a word (R11, `WORD_W` = 32). -/
def InRange (v : Int) : Prop := -2147483648 ≤ v ∧ v ≤ 2147483647

/-- `s` holds in `CLI` mode for an instruction word, and the host has delivered `w` with `rest` after it. -/
def AtCliWord (s : State) (w : Word) (rest : List Word) : Prop :=
  s.ctl = .cliWait ∧ s.mode = .cli ∧ s.instrIn = w :: rest

/-- `s` holds at a debugger prompt, the word at `pc` latched, and the host has given command `c` with `rest` after it. -/
def AtPrompt (s : State) (c : DbgCmd) (rest : List DbgCmd) : Prop :=
  s.ctl = .dbgWait ∧ s.mode = .debug ∧ s.pc = s.fpc ∧ s.dbgCmd = c :: rest

/-- The mode for the rest of the cycle after command `c` at a prompt (R60, R84, R85). -/
def modeAfter (c : DbgCmd) : Mode := if c = .cont then .mem else .debug

/-- `e` is the state in which the step from `s` reaches step 3 of the cycle, the word latched and `ctl` = `EXEC`: after a
fetch from memory, a word from the host, or a `STEP` or `CONT` at a prompt (R58 to R60, R66). -/
def ReachesExec (s e : State) : Prop :=
  (∃ f w, AtFetch s f w ∧ e = { s with ir := w, fpc := f, ctl := .exec }) ∨
  (∃ w rest, AtCliWord s w rest ∧ e = { s with instrIn := rest, ir := w, fpc := s.pc, ctl := .exec }) ∨
  (∃ c rest, AtPrompt s c rest ∧ (c = .step ∨ c = .cont) ∧
    e = { s with dbgCmd := rest, mode := modeAfter c, ctl := .exec })

/-- `t` differs from `s` in `pc` and `FPC` at most. -/
def SameButCounter (s t : State) : Prop := t = { s with pc := t.pc, fpc := t.fpc }

end Sys2Proof.Machine
end

