-- ==== Sys2Proof/Certificates/Slice0/Obligations.lean ====
section
/-! DEFINITION. The statements about the model, from the rules of the spec. Each docstring names the rule it formalises. -/

open Sys2Proof Sys2Proof.Machine

/-- R55 (derived by the spec from R49): the value of every canonical word; `decode` undoes `encode` on every
instruction; `encode` undoes `decode` on every legal word but the halt words 1 to 99, which re-encode as 0. -/
def Obligations.DecodeEncodeRoundTrip : Prop :=
  ((encode .halt).toInt = 0 ∧ (encode .inp).toInt = 901 ∧ (encode .outp).toInt = 902 ∧
    ∀ a : Addr, isCell a = true →
      (encode (.add a)).toInt = 100 + a.toNat ∧ (encode (.sub a)).toInt = 200 + a.toNat ∧
      (encode (.sto a)).toInt = 300 + a.toNat ∧ (encode (.lda a)).toInt = 500 + a.toNat ∧
      (encode (.bra a)).toInt = 600 + a.toNat ∧ (encode (.brz a)).toInt = 700 + a.toNat ∧
      (encode (.brp a)).toInt = 800 + a.toNat) ∧
  (∀ i : Instr, i.wf = true → decode (encode i) = .ok i) ∧
  (∀ (w : Word) (i : Instr), decode w = .ok i →
    i.wf = true ∧ encode i = if 1 ≤ w.toInt ∧ w.toInt ≤ 99 then 0 else w)

/-- R54 with R49 to R53 (the spec's decisions D3, D4): which words spell which instruction, by value, and that every
other word is illegal. -/
def Obligations.EveryWordIsOneKindOrIllegal : Prop :=
  ∀ w : Word,
    (decode w = .ok .halt ↔ 0 ≤ w.toInt ∧ w.toInt ≤ 99) ∧
    (∀ a : Addr, decode w = .ok (.add a) ↔ isCell a = true ∧ w.toInt = 100 + a.toNat) ∧
    (∀ a : Addr, decode w = .ok (.sub a) ↔ isCell a = true ∧ w.toInt = 200 + a.toNat) ∧
    (∀ a : Addr, decode w = .ok (.sto a) ↔ isCell a = true ∧ w.toInt = 300 + a.toNat) ∧
    (∀ a : Addr, decode w = .ok (.lda a) ↔ isCell a = true ∧ w.toInt = 500 + a.toNat) ∧
    (∀ a : Addr, decode w = .ok (.bra a) ↔ isCell a = true ∧ w.toInt = 600 + a.toNat) ∧
    (∀ a : Addr, decode w = .ok (.brz a) ↔ isCell a = true ∧ w.toInt = 700 + a.toNat) ∧
    (∀ a : Addr, decode w = .ok (.brp a) ↔ isCell a = true ∧ w.toInt = 800 + a.toNat) ∧
    (decode w = .ok .inp ↔ w.toInt = 901) ∧
    (decode w = .ok .outp ↔ w.toInt = 902) ∧
    ((∃ e, decode w = .error e) ↔ IsIllegal w)

/-- 95_test_vectors.md section 2.1: words written out from the spec's decode table, each with what it spells. -/
def Obligations.SpecVectorsDecode : Prop :=
  decode 0 = .ok .halt ∧ decode 17 = .ok .halt ∧ decode 99 = .ok .halt ∧
  decode 100 = .ok (.add 0) ∧ decode 199 = .ok (.add 99) ∧ decode 218 = .ok (.sub 18) ∧
  decode 399 = .ok (.sto 99) ∧ decode 500 = .ok (.lda 0) ∧ decode 599 = .ok (.lda 99) ∧
  decode 600 = .ok (.bra 0) ∧ decode 700 = .ok (.brz 0) ∧ decode 800 = .ok (.brp 0) ∧
  decode 899 = .ok (.brp 99) ∧ decode 901 = .ok .inp ∧ decode 902 = .ok .outp ∧
  decode 400 = .error .opcodeFour ∧ decode 499 = .error .opcodeFour ∧
  decode 900 = .error .unknownKey ∧ decode 903 = .error .unknownKey ∧
  decode 950 = .error .unknownKey ∧ decode 999 = .error .unknownKey ∧
  decode (-1) = .error .negative ∧ decode (-901) = .error .negative ∧
  decode 1000 = .error .aboveRange ∧ decode 1901 = .error .aboveRange

/-- R57 to R65: a step runs the decoded instruction. In each mode, when the word the cycle takes decodes to `i`, the
step is `exec i` on the state with the word latched and, but for HALT, the Counter advanced, and then the end of the
cycle. -/
def Obligations.StepRunsTheDecodedInstruction : Prop :=
  ∀ (s : State) (i : Instr),
    (∀ (f : Addr) (w : Word), AtFetch s f w → decode w = .ok i →
      (i = .halt → step s = exec .halt { s with ir := w, fpc := f, ctl := .exec }) ∧
      (i ≠ .halt → f.toNat ≤ 98 →
        step s = andThen (exec i { s with ir := w, fpc := f, pc := f + 1, ctl := .exec })
          fun t => .next t.endCycle)) ∧
    (∀ (w : Word) (rest : List Word), AtCliWord s w rest → decode w = .ok i →
      (i = .halt → step s = exec .halt { s with instrIn := rest, ir := w, fpc := s.pc, ctl := .exec }) ∧
      (i ≠ .halt →
        step s = andThen
          (exec i { s with instrIn := rest, ir := w, fpc := s.pc, pc := s.pc + 1, ctl := .exec })
          fun t => .next t.endCycle)) ∧
    (∀ (c : DbgCmd) (rest : List DbgCmd), AtPrompt s c rest → c = .step ∨ c = .cont →
      decode s.ir = .ok i →
      (i = .halt → step s = exec .halt { s with dbgCmd := rest, mode := modeAfter c, ctl := .exec }) ∧
      (i ≠ .halt → s.pc.toNat ≤ 98 →
        step s = andThen
          (exec i { s with dbgCmd := rest, mode := modeAfter c, pc := s.pc + 1, ctl := .exec })
          fun t => .next t.endCycle))

/-- R72, ADD (the overflow is the spec's decision D2): encoding, exact signed sum, frame, and `ARITH_OVERFLOW` with
`Acc` not written. -/
def Obligations.AddWritesTheExactSum : Prop :=
  ∀ (a : Addr) (s : State), isCell a = true →
    decode (BitVec.ofNat 32 (100 + a.toNat)) = .ok (.add a) ∧
    (InRange (s.acc.toInt + (s.mem.read a.toNat).toInt) →
      ∃ t, exec (.add a) s = .next t ∧ t.acc.toInt = s.acc.toInt + (s.mem.read a.toNat).toInt ∧
        t = { s with acc := t.acc } ∧ ∀ b, t.mem.read b = s.mem.read b) ∧
    (¬ InRange (s.acc.toInt + (s.mem.read a.toNat).toInt) →
      exec (.add a) s = .next { s with outcome := .arithOverflow, ctl := .done })

/-- R73, SUB (the overflow is the spec's decision D2): encoding, exact signed difference `Acc - Mem[a]`, frame, and
`ARITH_OVERFLOW` with `Acc` not written. -/
def Obligations.SubWritesTheExactDifference : Prop :=
  ∀ (a : Addr) (s : State), isCell a = true →
    decode (BitVec.ofNat 32 (200 + a.toNat)) = .ok (.sub a) ∧
    (InRange (s.acc.toInt - (s.mem.read a.toNat).toInt) →
      ∃ t, exec (.sub a) s = .next t ∧ t.acc.toInt = s.acc.toInt - (s.mem.read a.toNat).toInt ∧
        t = { s with acc := t.acc } ∧ ∀ b, t.mem.read b = s.mem.read b) ∧
    (¬ InRange (s.acc.toInt - (s.mem.read a.toNat).toInt) →
      exec (.sub a) s = .next { s with outcome := .arithOverflow, ctl := .done })

/-- R74, STO: encoding; cell `a` reads as the whole `Acc`, every other cell as before; nothing else changes; and a
later fetch from any cell latches what that cell now holds. -/
def Obligations.StoWritesItsCellOnly : Prop :=
  ∀ (a : Addr) (s : State), isCell a = true →
    decode (BitVec.ofNat 32 (300 + a.toNat)) = .ok (.sto a) ∧
    ∃ t, exec (.sto a) s = .next t ∧
      (∀ b : Nat, t.mem.read b = if b = a.toNat then s.acc else s.mem.read b) ∧
      t = { s with mem := t.mem } ∧
      (∀ b : Addr, isCell b = true →
        ∃ u, fetch { t with pc := b, ctl := .fetch } = .next u ∧ u.fpc = b ∧
          u.ir = if b = a then s.acc else s.mem.read b.toNat)

/-- R75, LDA: encoding; `Acc` gets the whole word of cell `a`, nothing else changes. -/
def Obligations.LdaLoadsTheWholeWord : Prop :=
  ∀ (a : Addr) (s : State), isCell a = true →
    decode (BitVec.ofNat 32 (500 + a.toNat)) = .ok (.lda a) ∧
    ∃ t, exec (.lda a) s = .next t ∧ t.acc = s.mem.read a.toNat ∧
      t = { s with acc := t.acc } ∧ ∀ b, t.mem.read b = s.mem.read b

/-- R77, BRA: encoding; `pc` gets `a` and nothing else changes; and from a whole cycle in `MEM` mode the next fetch is
at exactly `a`; a branch to its own address loops for any number of cycles. -/
def Obligations.BraFetchesNextAtItsTarget : Prop :=
  ∀ (a : Addr) (s : State), isCell a = true →
    decode (BitVec.ofNat 32 (600 + a.toNat)) = .ok (.bra a) ∧
    exec (.bra a) s = .next { s with pc := a } ∧
    (∀ f : Addr, AtFetch s f (BitVec.ofNat 32 (600 + a.toNat)) → f.toNat ≤ 98 →
      ∃ t u, step s = .next t ∧ AtFetch t a (s.mem.read a.toNat) ∧
        t = { s with pc := a, ir := BitVec.ofNat 32 (600 + a.toNat), fpc := f } ∧
        fetch t = .next u ∧ u.fpc = a) ∧
    (∀ k : Nat, a.toNat ≤ 98 → AtFetch s a (BitVec.ofNat 32 (600 + a.toNat)) →
      ∃ t, run k s = .next t ∧ AtFetch t a (BitVec.ofNat 32 (600 + a.toNat)) ∧ t.outcome = s.outcome)

/-- R78, BRZ: encoding; taken exactly when `Acc <= 0`, signed; not taken, `pc` stays `FPC + 1`; nothing else changes.
-/
def Obligations.BrzBranchesWhenNotPositive : Prop :=
  ∀ (a : Addr) (s : State), isCell a = true →
    decode (BitVec.ofNat 32 (700 + a.toNat)) = .ok (.brz a) ∧
    (s.acc.toInt ≤ 0 → exec (.brz a) s = .next { s with pc := a }) ∧
    (0 < s.acc.toInt → exec (.brz a) s = .next s) ∧
    (∀ f : Addr, AtFetch s f (BitVec.ofNat 32 (700 + a.toNat)) → f.toNat ≤ 98 →
      step s = .next { s with pc := if s.acc.toInt ≤ 0 then a else f + 1,
                              ir := BitVec.ofNat 32 (700 + a.toNat), fpc := f })

/-- R79, BRP: encoding; taken exactly when `Acc != 0`; not taken, `pc` stays `FPC + 1`; nothing else changes. -/
def Obligations.BrpBranchesWhenNotZero : Prop :=
  ∀ (a : Addr) (s : State), isCell a = true →
    decode (BitVec.ofNat 32 (800 + a.toNat)) = .ok (.brp a) ∧
    (s.acc.toInt ≠ 0 → exec (.brp a) s = .next { s with pc := a }) ∧
    (s.acc.toInt = 0 → exec (.brp a) s = .next s) ∧
    (∀ f : Addr, AtFetch s f (BitVec.ofNat 32 (800 + a.toNat)) → f.toNat ≤ 98 →
      step s = .next { s with pc := if s.acc.toInt ≠ 0 then a else f + 1,
                              ir := BitVec.ofNat 32 (800 + a.toNat), fpc := f })

/-- R80, INP: exactly the word 901; the front of `In` moves to `Acc`, the rest stays in order; an empty `In` changes
nothing and the cycle goes on. -/
def Obligations.InpTakesTheFrontOfInput : Prop :=
  (∀ w : Word, decode w = .ok .inp ↔ w.toInt = 901) ∧
  ∀ s : State,
    (∀ (v : Word) (rest : List Word), s.input = v :: rest →
      exec .inp s = .next { s with acc := v, input := rest }) ∧
    (s.input = [] → exec .inp s = .next s) ∧
    (s.input = [] → ∀ f : Addr, AtFetch s f 901 → f.toNat ≤ 98 →
      step s = .next { s with pc := f + 1, ir := 901, fpc := f })

/-- R81, OUTP (the spec's decision D12): exactly the word 902; `Acc` is appended to `Out` and presented on `out`;
nothing else changes; two in a row emit the value twice; and the value stays in `Out` however the run goes on or ends.
-/
def Obligations.OutpEmitsTheAccumulator : Prop :=
  (∀ w : Word, decode w = .ok .outp ↔ w.toInt = 902) ∧
  ∀ s : State, ∃ t, exec .outp s = .next t ∧ t = { s with output := s.output ++ [s.acc] } ∧
    presented s t = [s.acc] ∧
    exec .outp t = .next { s with output := s.output ++ [s.acc, s.acc] } ∧
    ∀ (k : Nat) (u : State), run k t = .next u → (s.output ++ [s.acc]) <+: u.output

/-- R62, HALT (words 1 to 99 by the spec's decision D3): every word 0 to 99 ends the run with `HALTED`, `pc` not
advanced, in `MEM` mode from every cell, 99 too, in `CLI` mode, and at a debugger prompt on `STEP` or `CONT`, while
`QUIT` there ends it with `TERMINATED`. -/
def Obligations.HaltEndsTheRunBeforeTheAdvance : Prop :=
  ∀ (s : State) (w : Word), 0 ≤ w.toInt → w.toInt ≤ 99 →
    decode w = .ok .halt ∧
    exec .halt s = .next { s with outcome := .halted, ctl := .done } ∧
    (∀ f : Addr, AtFetch s f w →
      step s = .next { s with ir := w, fpc := f, outcome := .halted, ctl := .done }) ∧
    (∀ rest : List Word, AtCliWord s w rest →
      step s = .next { s with instrIn := rest, ir := w, fpc := s.pc, outcome := .halted, ctl := .done }) ∧
    (∀ (c : DbgCmd) (rest : List DbgCmd), AtPrompt s c rest → s.ir = w →
      (c = .step ∨ c = .cont →
        step s = .next { s with dbgCmd := rest, mode := modeAfter c, outcome := .halted, ctl := .done }) ∧
      (c = .quit → step s = .next { s with dbgCmd := rest, outcome := .terminated, ctl := .done }))

/-- R63 and R116: after every cycle that raises nothing the Counter is the fetch address plus 1, modulo 128, or the
target of the branch the cycle took. -/
def Obligations.CounterAdvancesOrTakesTheBranch : Prop :=
  ∀ s t : State, Sound s → step s = .next t → t.ctl = .fetch →
    t.pc.toNat = (t.fpc.toNat + 1) % 128 ∨
    ∃ a, t.pc = a ∧ isCell a = true ∧
      (decode t.ir = .ok (.bra a) ∨ (decode t.ir = .ok (.brz a) ∧ s.acc.toInt ≤ 0) ∨
        (decode t.ir = .ok (.brp a) ∧ s.acc.toInt ≠ 0))

/-- R64: outside `CLI` mode a cycle from cell 99 that passes the halt check ends with `OVERFLOW`, `pc` = 100, nothing
dispatched, whatever the word, also under the debugger; in `CLI` mode no step raises it. -/
def Obligations.CellNinetyNineOverflows : Prop :=
  (∀ (s : State) (w : Word), AtFetch s 99 w → decode w ≠ .ok .halt →
    step s = .next { s with ir := w, fpc := 99, pc := 100, outcome := .overflow, ctl := .done }) ∧
  (∀ s e : State, ReachesExec s e → e.mode ≠ .cli → e.pc = 99 → decode e.ir ≠ .ok .halt →
    step s = .next { e with pc := 100, outcome := .overflow, ctl := .done }) ∧
  (∀ s t : State, s.mode = .cli → s.ctl ≠ .dbgWait → s.outcome ≠ .overflow → step s = .next t →
    t.outcome ≠ .overflow)

/-- R94 (the spec's decision D4): an illegal word that reaches dispatch, in any mode, ends the run with
`ILLEGAL_INSTRUCTION`: `IR` the word, `FPC` its address, `pc` = `FPC + 1` (modulo 128 in `CLI` mode), the rest
unchanged. -/
def Obligations.IllegalWordEndsTheRun : Prop :=
  (∀ (s : State) (f : Addr) (w : Word), IsIllegal w → AtFetch s f w → f.toNat ≤ 98 →
    step s = .next { s with ir := w, fpc := f, pc := f + 1, outcome := .illegalInstruction, ctl := .done }) ∧
  (∀ s e : State, ReachesExec s e → IsIllegal e.ir → (e.mode = .cli ∨ e.pc.toNat ≤ 98) →
    step s = .next { e with pc := e.pc + 1, outcome := .illegalInstruction, ctl := .done })

/-- R95 (the spec's decision D2): ADD or SUB whose exact result is no word ends the run with `ARITH_OVERFLOW`, the
cycle writing `IR`, `FPC` and the advanced `pc` only, in any mode; and no other instruction and no other result raises
it. -/
def Obligations.ArithOverflowEndsTheRun : Prop :=
  (∀ (s e : State) (a : Addr), ReachesExec s e → isCell a = true → (e.mode = .cli ∨ e.pc.toNat ≤ 98) →
    (e.ir.toInt = 100 + a.toNat ∧ ¬ InRange (s.acc.toInt + (s.mem.read a.toNat).toInt) ∨
      e.ir.toInt = 200 + a.toNat ∧ ¬ InRange (s.acc.toInt - (s.mem.read a.toNat).toInt)) →
    step s = .next { e with pc := e.pc + 1, outcome := .arithOverflow, ctl := .done } ∧
      e.fpc = s.pc ∧ e.acc = s.acc ∧ e.mem = s.mem ∧ e.input = s.input ∧ e.output = s.output) ∧
  (∀ s t : State, step s = .next t → s.outcome ≠ .arithOverflow → t.outcome = .arithOverflow →
    ∃ a, (decode t.ir = .ok (.add a) ∧ ¬ InRange (s.acc.toInt + (s.mem.read a.toNat).toInt)) ∨
      (decode t.ir = .ok (.sub a) ∧ ¬ InRange (s.acc.toInt - (s.mem.read a.toNat).toInt)))

/-- R101 (derived by the spec): the outcome of a cycle is the first that applies in the order `TERMINATED`, `HALTED`,
`OVERFLOW`, `ILLEGAL_INSTRUCTION`, `ARITH_OVERFLOW`, and none if none applies. -/
def Obligations.FirstOutcomeInCycleOrderWins : Prop :=
  (∀ (s : State) (rest : List DbgCmd), AtPrompt s .quit rest →
    ∃ t, step s = .next t ∧ t.outcome = .terminated) ∧
  ∀ s e : State, ReachesExec s e → s.outcome = .running → (s.mode = .cli ∨ s.pc.toNat ≤ 99) →
    ∃ t, step s = .next t ∧
      (decode e.ir = .ok .halt → t.outcome = .halted) ∧
      (decode e.ir ≠ .ok .halt → s.mode ≠ .cli → s.pc = 99 → t.outcome = .overflow) ∧
      (IsIllegal e.ir → (s.mode = .cli ∨ s.pc ≠ 99) → t.outcome = .illegalInstruction) ∧
      ((s.mode = .cli ∨ s.pc ≠ 99) → ∀ a,
        (decode e.ir = .ok (.add a) ∧ ¬ InRange (s.acc.toInt + (s.mem.read a.toNat).toInt) ∨
          decode e.ir = .ok (.sub a) ∧ ¬ InRange (s.acc.toInt - (s.mem.read a.toNat).toInt)) →
        t.outcome = .arithOverflow) ∧
      ((s.mode = .cli ∨ s.pc ≠ 99) → decode e.ir ≠ .ok .halt → ¬ IsIllegal e.ir →
        (∀ a, decode e.ir = .ok (.add a) → InRange (s.acc.toInt + (s.mem.read a.toNat).toInt)) →
        (∀ a, decode e.ir = .ok (.sub a) → InRange (s.acc.toInt - (s.mem.read a.toNat).toInt)) →
        t.outcome = .running ∧ t.ctl = .fetch)

/-- R66 (the spec's decision D15), both columns. The first part is the action of every row, the rows of `EXEC` tested top
to bottom; a row that leads to `EXEC` is followed by the `EXEC` row in the same step (notes/assumptions/5.md, DEDUCED), so
such a step is the step from the `EXEC` state the row gives. The second part is where every step that answers a next state
leads. -/
def Obligations.ControlStateFollowsItsTable : Prop :=
  ∀ s : State,
    ((s.ctl = .fetch → s.mode = .cli → step s = .next { s with ctl := .cliWait }) ∧
      (s.ctl = .fetch → s.mode = .debug → isCell s.pc = true →
        step s = .next { s with ir := s.mem.read s.pc.toNat, fpc := s.pc, ctl := .dbgWait }) ∧
      (s.ctl = .fetch → s.mode = .mem → isCell s.pc = true →
        step s = step { s with ir := s.mem.read s.pc.toNat, fpc := s.pc, ctl := .exec }) ∧
      (s.ctl = .cliWait → (s.instrIn = [] → step s = .next s) ∧
        ∀ w rest, s.instrIn = w :: rest →
          step s = step { s with instrIn := rest, ir := w, fpc := s.pc, ctl := .exec }) ∧
      (s.ctl = .dbgWait → (s.dbgCmd = [] → step s = .next s) ∧
        ∀ c rest, s.dbgCmd = c :: rest →
          (c = .step → step s = step { s with dbgCmd := rest, ctl := .exec }) ∧
          (c = .cont → step s = step { s with dbgCmd := rest, mode := .mem, ctl := .exec }) ∧
          (c = .quit → step s = .next { s with dbgCmd := rest, outcome := .terminated, ctl := .done }) ∧
          (c = .help ∨ c = .other → step s = .next { s with dbgCmd := rest })) ∧
      (s.ctl = .exec →
        (decode s.ir = .ok .halt → step s = .next { s with outcome := .halted, ctl := .done }) ∧
        (decode s.ir ≠ .ok .halt → s.mode ≠ .cli → 99 < (s.pc + 1).toNat →
          step s = .next { s with pc := s.pc + 1, outcome := .overflow, ctl := .done }) ∧
        (s.mode = .cli ∨ (s.pc + 1).toNat ≤ 99 →
          (IsIllegal s.ir →
            step s = .next { s with pc := s.pc + 1, outcome := .illegalInstruction, ctl := .done }) ∧
          (∀ a, (decode s.ir = .ok (.add a) ∧ ¬ InRange (s.acc.toInt + (s.mem.read a.toNat).toInt) ∨
              decode s.ir = .ok (.sub a) ∧ ¬ InRange (s.acc.toInt - (s.mem.read a.toNat).toInt)) →
            step s = .next { s with pc := s.pc + 1, outcome := .arithOverflow, ctl := .done }) ∧
          (∀ i, decode s.ir = .ok i → i ≠ .halt →
            (∀ a, i = .add a → InRange (s.acc.toInt + (s.mem.read a.toNat).toInt)) →
            (∀ a, i = .sub a → InRange (s.acc.toInt - (s.mem.read a.toNat).toInt)) →
            ∃ u, exec i { s with pc := s.pc + 1 } = .next u ∧ step s = .next { u with ctl := .fetch }))) ∧
      (s.ctl = .done → step s = .next s)) ∧
    ∀ t : State, step s = .next t →
      (s.ctl = .fetch → s.mode = .mem → t.ctl = .fetch ∨ t.ctl = .done) ∧
      (s.ctl = .fetch → s.mode = .debug → t.ctl = .dbgWait) ∧
      (s.ctl = .fetch → s.mode = .cli → t.ctl = .cliWait) ∧
      (s.ctl = .cliWait → (s.instrIn = [] → t.ctl = .cliWait) ∧
        (s.instrIn ≠ [] → t.ctl = .fetch ∨ t.ctl = .done)) ∧
      (s.ctl = .dbgWait → (s.dbgCmd = [] → t.ctl = .dbgWait) ∧
        ∀ c rest, s.dbgCmd = c :: rest →
          (c = .help ∨ c = .other → t.ctl = .dbgWait) ∧
          (c = .quit → t.ctl = .done) ∧
          (c = .step ∨ c = .cont → t.ctl = .fetch ∨ t.ctl = .done)) ∧
      (s.ctl = .exec → t.ctl = .fetch ∨ t.ctl = .done) ∧
      (s.ctl = .done → t.ctl = .done)

/-- R96 (the spec's decision D22): after any outcome no step changes any state, for any number of steps, and nothing
the host offers is read (the offers as in notes/assumptions/1.md, the model's choice). -/
def Obligations.EndedRunStaysAsItIs : Prop :=
  ∀ (k : Nat) (s : State) (ws : List Word) (cs : List DbgCmd), s.ctl = .done →
    run k ((s.offerWords ws).offerCmds cs) = .next ((s.offerWords ws).offerCmds cs)

/-- R121 (with R59 and R82): a hold changes no state for as long as the host delivers nothing. -/
def Obligations.HoldsChangeNothing : Prop :=
  ∀ (k : Nat) (s : State),
    (s.ctl = .cliWait ∧ s.instrIn = []) ∨ (s.ctl = .dbgWait ∧ s.dbgCmd = []) →
    run k s = .next s

/-- R84 to R88: what each command does at a prompt. `HELP` and `OTHER` present the view again and keep the hold. -/
def Obligations.DebuggerCommandsAtThePrompt : Prop :=
  ∀ (s : State) (c : DbgCmd) (rest : List DbgCmd), AtPrompt s c rest →
    s.promptView = some s.view ∧
    (c = .help ∨ c = .other →
      step s = .next { s with dbgCmd := rest } ∧
      State.promptView { s with dbgCmd := rest } = some s.view) ∧
    (c = .quit → step s = .next { s with dbgCmd := rest, outcome := .terminated, ctl := .done }) ∧
    (c = .step → step s = step { s with dbgCmd := rest, ctl := .exec }) ∧
    (c = .cont → step s = step { s with dbgCmd := rest, mode := .mem, ctl := .exec })

/-- R93 (with R82, R86, R87, R88): `QUIT` after any number of `HELP` and `OTHER` ends the run with `TERMINATED`, the
word fetched and not executed, every other register and memory as before the cycle. -/
def Obligations.QuitTerminatesUnexecuted : Prop :=
  ∀ (s : State) (f : Addr) (cs rest : List DbgCmd), s.ctl = .fetch → s.mode = .debug → s.pc = f →
    isCell f = true → (∀ c ∈ cs, c = .help ∨ c = .other) → s.dbgCmd = cs ++ .quit :: rest →
    run (cs.length + 2) s =
      .next { s with ir := s.mem.read f.toNat, fpc := f, dbgCmd := rest,
                     outcome := .terminated, ctl := .done }

/-- R90 (with R84, R85): one cycle under the debugger, after any number of `HELP` and `OTHER`, has the effect it has
in `MEM` mode: `STEP` leaves the mode `DEBUG`, `CONT` leaves it `MEM`. -/
def Obligations.DebuggedCycleEqualsMemCycle : Prop :=
  ∀ (s u : State) (cs rest : List DbgCmd), s.ctl = .fetch → s.mode = .debug →
    (∀ c ∈ cs, c = .help ∨ c = .other) →
    step { s with mode := .mem, dbgCmd := rest } = .next u →
    run (cs.length + 2) { s with dbgCmd := cs ++ .step :: rest } =
      .next { u with mode := .debug } ∧
    run (cs.length + 2) { s with dbgCmd := cs ++ .cont :: rest } = .next u

/-- R90: a whole run single-stepped under the debugger reaches the state the run in `MEM` mode reaches, cycle for
cycle, but for the mode and the commands not taken. -/
def Obligations.SingleSteppedRunRefinesMemRun : Prop :=
  ∀ (n : Nat) (s u : State), s.ctl = .fetch → s.mode = .debug → s.dbgCmd = List.replicate n .step →
    run n { s with mode := .mem, dbgCmd := [] } = .next u →
    ∃ left, run (2 * n) s = .next { u with mode := .debug, dbgCmd := left }

/-- R89 (with R21): a step changes the mode only from `DEBUG` to `MEM`, and only on `CONT` at a prompt. -/
def Obligations.ModeChangesOnlyOnContinue : Prop :=
  ∀ s t : State, Sound s → step s = .next t →
    t.mode = s.mode ∨
      (s.mode = .debug ∧ t.mode = .mem ∧ s.ctl = .dbgWait ∧ ∃ rest, s.dbgCmd = .cont :: rest)

/-- R18, R29, R32, R82, R91 to R95, R97, R100: every step keeps the invariant `Sound`, from every state that meets it. -/
def Obligations.EveryStepKeepsSoundness : Prop :=
  ∀ s t : State, Sound s → step s = .next t → Sound t

/-- R110: the state after reset meets the invariant. -/
def Obligations.ResetIsSound : Prop := Sound State.reset

/-- R41, R110, R111: the state after any accepted load meets the invariant. -/
def Obligations.LoadedStateIsSound : Prop :=
  ∀ (prog inputs : List Int) (m : BitVec 2) (s : State), load prog inputs m = .ok s → Sound s

/-- R121 (with R40): from every state that meets the invariant a step answers a next state: no fault and no refusal.
-/
def Obligations.SoundStateAlwaysSteps : Prop :=
  ∀ s : State, Sound s → ∃ t, step s = .next t

/-- R40, R67, R96, R121 (the offers as in notes/assumptions/1.md, the model's choice): a run of any length, of any
loaded program, with any Input, start mode, instruction words and debugger commands, goes on without a fault or a
refusal and stays within the invariant. -/
def Obligations.LoadedRunsNeverStop : Prop :=
  ∀ (k : Nat) (prog inputs : List Int) (m : BitVec 2) (s : State) (ws : List Word) (cs : List DbgCmd),
    load prog inputs m = .ok s →
    ∃ t, run k ((s.offerWords ws).offerCmds cs) = .next t ∧ Sound t

/-- R41, R42, R110, R111 (the acceptance the spec's decision D13, the mode codes D7, the reset values of `IR`, `FPC`,
`ctl` and `outcome` D21, D15, D9): every legal load is accepted, and the state it gives holds the program in the first
cells, 0 in the others, the Input list, the start mode, and every other piece of state at its reset value. -/
def Obligations.LoadGivesTheResetState : Prop :=
  ∀ (prog inputs : List Int) (m : BitVec 2), prog.length ≤ 100 → (∀ v ∈ prog, InRange v) →
    (∀ v ∈ inputs, InRange v) → m ≠ 3 →
    ∃ s, load prog inputs m = .ok s ∧
      (∀ (j : Nat) (h : j < prog.length), (s.mem.read j).toInt = prog[j]) ∧
      (∀ j : Nat, prog.length ≤ j → j ≤ 99 → s.mem.read j = 0) ∧
      s.input.map BitVec.toInt = inputs ∧ s.mode.code = m ∧
      s.acc = 0 ∧ s.pc = 0 ∧ s.output = [] ∧ s.ir = 0 ∧ s.fpc = 0 ∧ s.ctl = .fetch ∧
      s.outcome = .running

/-- R42: a load is refused exactly when the program is too long, a program word or an Input value is no word, or the
start mode code is 3. (Text that does not parse never reaches the block.) -/
def Obligations.LoadRefusedExactlyWhen : Prop :=
  ∀ (prog inputs : List Int) (m : BitVec 2),
    (∃ e, load prog inputs m = .error e) ↔
      100 < prog.length ∨ (∃ v ∈ prog, ¬ InRange v) ∨ (∃ v ∈ inputs, ¬ InRange v) ∨ m = 3

/-- R15, R23, R24, R25, R26: which instruction a step must have run to change `Acc`, a cell, `In` or `Out`, and what
the change then is. -/
def Obligations.OnlyTheNamedInstructionsWrite : Prop :=
  ∀ s t : State, step s = .next t →
    (t.acc ≠ s.acc → decode t.ir = .ok .inp ∨
      ∃ a, decode t.ir = .ok (.add a) ∨ decode t.ir = .ok (.sub a) ∨ decode t.ir = .ok (.lda a)) ∧
    (∀ b : Nat, t.mem.read b ≠ s.mem.read b →
      ∃ a : Addr, decode t.ir = .ok (.sto a) ∧ a.toNat = b ∧ t.mem.read b = s.acc) ∧
    (t.input ≠ s.input → decode t.ir = .ok .inp ∧ s.input = t.acc :: t.input) ∧
    (t.output ≠ s.output → decode t.ir = .ok .outp ∧ t.output = s.output ++ [s.acc])

/-- R21, R22, R27: the frame of every instruction: its handler leaves the mode, `IR`, `FPC` and the host's interfaces
as they are, and changes the outcome and the control state only together, to end the run. -/
def Obligations.HandlersLeaveControlStateAlone : Prop :=
  ∀ (i : Instr) (s t : State), exec i s = .next t →
    t.mode = s.mode ∧ t.ir = s.ir ∧ t.fpc = s.fpc ∧ t.instrIn = s.instrIn ∧ t.dbgCmd = s.dbgCmd ∧
    ((t.outcome = s.outcome ∧ t.ctl = s.ctl) ∨
      (t = { s with outcome := .halted, ctl := .done } ∧ i = .halt) ∨
      (t = { s with outcome := .arithOverflow, ctl := .done } ∧ ∃ a, i = .add a ∨ i = .sub a))

/-- R105 and R40: every well-formed instruction completes in every state; a term with an operand outside 0 to 99,
which no word decodes to, faults by name (the model's own choice, notes/assumptions/4.md). -/
def Obligations.HandlersCompleteOnWellFormed : Prop :=
  ∀ (i : Instr) (s : State),
    (i.wf = true → ∃ t, exec i s = .next t) ∧
    (i.wf = false → ∃ n, 100 ≤ n ∧ exec i s = .fault (.noSuchCell n))

/-- R45 and R117: the word STO writes is what the very next fetch of that cell reads, the next instruction too. -/
def Obligations.StoredWordIsFetchedNext : Prop :=
  ∀ (s : State) (f a : Addr), isCell a = true → f.toNat ≤ 98 →
    AtFetch s f (BitVec.ofNat 32 (300 + a.toNat)) →
    ∃ t, step s = .next t ∧
      AtFetch t (f + 1) (if a = f + 1 then s.acc else s.mem.read (f + 1).toNat)

/-- R19: in `CLI` mode nothing depends on the Counter: two runs that differ in `pc` and `FPC` differ in nothing else
after any number of steps. -/
def Obligations.CounterIsUnusedInCliMode : Prop :=
  ∀ (k : Nat) (s t : State) (p q : Addr), s.mode = .cli → s.ctl ≠ .dbgWait →
    run k s = .next t →
    ∃ t', run k { s with pc := p, fpc := q } = .next t' ∧ SameButCounter t t'

/-- R68 (the offers as in notes/assumptions/1.md, the model's choice): a run in `MEM` mode is a function of the rest
of the state: what the host offers on `instr_in` and `dbg_cmd` has no effect on it and is not taken. -/
def Obligations.MemRunIgnoresTheHost : Prop :=
  ∀ (k : Nat) (s t : State) (ws : List Word) (cs : List DbgCmd), s.mode = .mem → s.ctl ≠ .cliWait →
    s.ctl ≠ .dbgWait → run k s = .next t →
    run k { s with instrIn := ws, dbgCmd := cs } =
      .next { t with instrIn := ws, dbgCmd := cs }

/-- R24 and R25: over any run, Output is only appended to, at most one word a step, and Input is only consumed from
the front. -/
def Obligations.OutputGrowsAndInputShrinks : Prop :=
  ∀ (k : Nat) (s t : State), run k s = .next t →
    (∃ emitted, t.output = s.output ++ emitted ∧ emitted.length ≤ k) ∧
    ∃ taken, s.input = taken ++ t.input ∧ taken.length ≤ k
end

