-- ==== Sys2Proof/Laws/Decode.lean ====
section
/-! SUPPORT. The small lemmas of the decoder and the encoder: the value of a word made from a small number, the address
field, and the decoder on each hundreds digit. -/

namespace Sys2Proof

theorem isCell_iff (a : Addr) : isCell a = true ↔ a.toNat < 100 := by
  simp only [isCell, decide_eq_true_eq]
  exact Iff.rfl

theorem isCell_false_iff (a : Addr) : isCell a = false ↔ 100 ≤ a.toNat := by
  rw [← Bool.not_eq_true, isCell_iff]; omega

/-- A number below `2^31` is the signed value of its word. -/
theorem toInt_ofNat_small (n : Nat) (h : n < 2147483648) : (BitVec.ofNat 32 n).toInt = n := by
  rw [BitVec.toInt_eq_toNat_of_lt] <;> simp <;> omega

theorem toNat_ofNat_small (n : Nat) (h : n < 2147483648) : (BitVec.ofNat 32 n).toNat = n := by
  simp; omega

theorem addressField_toNat (n : Nat) : (addressField n).toNat = n % 100 := by
  simp [addressField]; omega

/-- The address field of an opcode's word is its operand. -/
theorem addressField_of_digits (d : Nat) (a : Addr) (h : a.toNat < 100) :
    addressField (100 * d + a.toNat) = a := by
  apply BitVec.eq_of_toNat_eq
  rw [addressField_toNat]
  omega

/-- The decoder on a word whose value is a three-digit number. -/
theorem decode_ofNat (n : Nat) (h : n ≤ 999) : decode (BitVec.ofNat 32 n) = decodeDigits n := by
  have h1 := toInt_ofNat_small n (by omega)
  have h2 := toNat_ofNat_small n (by omega)
  simp only [decode, h1, h2, Config.maxInstrWord]
  rw [if_neg (by omega), if_neg (by omega)]

/-- A word whose signed value is a three-digit number is the word of that number. -/
theorem eq_ofNat_of_toInt (w : Word) (n : Nat) (hn : n ≤ 999) (h : w.toInt = n) :
    w = BitVec.ofNat 32 n := by
  apply BitVec.eq_of_toInt_eq
  rw [h, toInt_ofNat_small n (by omega)]

/-- Every word is refused, or it is the word of a three-digit number and is read by its digits. -/
theorem decode_cases (w : Word) :
    ((w.toInt < 0 ∨ 999 < w.toInt) ∧ ∃ e, decode w = .error e) ∨
      ∃ n : Nat, n ≤ 999 ∧ w = BitVec.ofNat 32 n ∧ w.toInt = n ∧ decode w = decodeDigits n := by
  by_cases h0 : w.toInt < 0
  · exact .inl ⟨.inl h0, .negative, by simp [decode, h0]⟩
  by_cases h1 : 999 < w.toInt
  · exact .inl ⟨.inr h1, .aboveRange, by simp [decode, h0, Config.maxInstrWord]; omega⟩
  have hw := eq_ofNat_of_toInt w w.toInt.toNat (by omega) (by omega)
  refine .inr ⟨w.toInt.toNat, by omega, hw, by omega, ?_⟩
  conv => lhs; rw [hw]
  exact decode_ofNat _ (by omega)

/-- What a three-digit number decodes to, if it decodes: the inversion of `decodeDigits`. -/
theorem decodeDigits_ok {n : Nat} {i : Instr} (h : decodeDigits n = .ok i) :
    (i = .halt ∧ n ≤ 99) ∨
    (∃ a, isCell a = true ∧
      (i = .add a ∧ n = 100 + a.toNat ∨ i = .sub a ∧ n = 200 + a.toNat ∨
       i = .sto a ∧ n = 300 + a.toNat ∨ i = .lda a ∧ n = 500 + a.toNat ∨
       i = .bra a ∧ n = 600 + a.toNat ∨ i = .brz a ∧ n = 700 + a.toNat ∨
       i = .brp a ∧ n = 800 + a.toNat)) ∨
    (i = .inp ∧ n = 901) ∨ (i = .outp ∧ n = 902) := by
  have hc : isCell (addressField n) = true := by rw [isCell_iff, addressField_toNat]; omega
  have hm := addressField_toNat n
  unfold decodeDigits decodeNine at h
  repeat' split at h
  all_goals cases h
  all_goals simp only [reduceCtorEq, false_and, true_and, false_or, or_false, exists_const, and_false]
  all_goals first | omega | (refine ⟨addressField n, hc, ?_⟩; simp; omega)

/-- The decoder gives well-formed instructions only (R50). -/
theorem decode_wf {w : Word} {i : Instr} (h : decode w = .ok i) : i.wf = true := by
  obtain ⟨-, e, he⟩ | ⟨n, -, -, -, hd⟩ := decode_cases w
  · rw [he] at h; cases h
  · rw [hd] at h
    obtain ⟨rfl, -⟩ | ⟨a, ha, h⟩ | ⟨rfl, -⟩ | ⟨rfl, -⟩ := decodeDigits_ok h
    · rfl
    · obtain ⟨rfl, -⟩ | ⟨rfl, -⟩ | ⟨rfl, -⟩ | ⟨rfl, -⟩ | ⟨rfl, -⟩ | ⟨rfl, -⟩ | ⟨rfl, -⟩ := h <;> exact ha
    · rfl
    · rfl

end Sys2Proof
end

