-- ==== Sys2Proof/Laws/Memory.lean ====
section
/-! SUPPORT. The laws of memory: a read after a write, and that every write keeps the canonical form. -/

namespace Sys2Proof.Machine

@[simp] theorem Mem.read_nil (a : Nat) : Mem.read [] a = Mem.unlisted := rfl

@[simp] theorem Mem.wf_nil : Mem.wf [] = true := rfl

theorem Mem.read_erase (m : Mem) (a b : Nat) :
    (m.erase a).read b = if b = a then Mem.unlisted else m.read b := by
  induction m with
  | nil => simp [Mem.erase]
  | cons p m ih =>
    obtain ⟨c, u⟩ := p
    by_cases hc : c = a <;> by_cases hb : c = b <;> simp_all [Mem.erase, Mem.read]

theorem Mem.read_insert_same (m : Mem) (a : Nat) (v : Word) (h : ∀ p ∈ m, p.1 ≠ a) :
    (m.insert a v).read a = v := by
  induction m with
  | nil => simp [Mem.insert, Mem.read]
  | cons p m ih =>
    obtain ⟨c, u⟩ := p
    have hc : c ≠ a := h (c, u) (by simp)
    have ht : ∀ p ∈ m, p.1 ≠ a := fun p hp => h p (by simp [hp])
    unfold Mem.insert
    split <;> simp [Mem.read, hc, ih ht]

theorem Mem.read_insert_other (m : Mem) (a b : Nat) (v : Word) (h : b ≠ a) :
    (m.insert a v).read b = m.read b := by
  induction m with
  | nil => simp [Mem.insert, Mem.read, h.symm]
  | cons p m ih =>
    obtain ⟨c, u⟩ := p
    unfold Mem.insert
    split <;> simp [Mem.read, ih, h.symm]

theorem Mem.erase_has_no_entry (m : Mem) (a : Nat) : ∀ p ∈ m.erase a, p.1 ≠ a := by
  induction m with
  | nil => simp [Mem.erase]
  | cons p m ih =>
    obtain ⟨c, u⟩ := p
    unfold Mem.erase
    split
    · exact ih
    · rintro p (_ | ⟨_, hp⟩)
      · assumption
      · exact ih p hp

/-- Read after write (R43): the cell written holds the word, every other cell what it held. -/
theorem Mem.read_write (m : Mem) (a b : Nat) (v : Word) :
    (m.write a v).read b = if b = a then v else m.read b := by
  unfold Mem.write
  split
  · next h => rw [Mem.read_erase, h]
  · by_cases hb : b = a
    · subst hb; simp [Mem.read_insert_same _ _ _ (Mem.erase_has_no_entry m b)]
    · rw [Mem.read_insert_other _ _ _ _ hb, Mem.read_erase]; simp [hb]

theorem Mem.wfFrom_cons (lo b : Nat) (u : Word) (m : Mem) :
    Mem.wfFrom lo ((b, u) :: m) = true ↔
      lo ≤ b ∧ b < 100 ∧ u ≠ Mem.unlisted ∧ Mem.wfFrom (b + 1) m = true := by
  simp only [Mem.wfFrom, Bool.and_eq_true, decide_eq_true_eq, and_assoc]
  exact Iff.rfl

theorem Mem.wfFrom_mono {lo lo' : Nat} (m : Mem) (h : lo' ≤ lo) (hw : Mem.wfFrom lo m = true) :
    Mem.wfFrom lo' m = true := by
  cases m with
  | nil => rfl
  | cons p m => obtain ⟨b, u⟩ := p; rw [Mem.wfFrom_cons] at *; exact ⟨h.trans hw.1, hw.2⟩

theorem Mem.wfFrom_erase (m : Mem) (lo a : Nat) (hw : Mem.wfFrom lo m = true) :
    Mem.wfFrom lo (m.erase a) = true := by
  induction m generalizing lo with
  | nil => rfl
  | cons p m ih =>
    obtain ⟨b, u⟩ := p
    rw [Mem.wfFrom_cons] at hw
    unfold Mem.erase
    split
    · exact ih lo (Mem.wfFrom_mono m (by omega) hw.2.2.2)
    · rw [Mem.wfFrom_cons]; exact ⟨hw.1, hw.2.1, hw.2.2.1, ih _ hw.2.2.2⟩

theorem Mem.wfFrom_insert (m : Mem) (lo a : Nat) (v : Word) (hw : Mem.wfFrom lo m = true)
    (hlo : lo ≤ a) (ha : a < 100) (hv : v ≠ Mem.unlisted) (hno : ∀ p ∈ m, p.1 ≠ a) :
    Mem.wfFrom lo (m.insert a v) = true := by
  induction m generalizing lo with
  | nil =>
    unfold Mem.insert
    rw [Mem.wfFrom_cons]
    exact ⟨hlo, ha, hv, rfl⟩
  | cons p m ih =>
    obtain ⟨b, u⟩ := p
    have hb : b ≠ a := hno (b, u) (by simp)
    rw [Mem.wfFrom_cons] at hw
    unfold Mem.insert
    split
    · next hlt =>
      rw [Mem.wfFrom_cons, Mem.wfFrom_cons]
      exact ⟨hlo, ha, hv, by omega, hw.2⟩
    · rw [Mem.wfFrom_cons]
      exact ⟨hw.1, hw.2.1, hw.2.2.1,
        ih _ hw.2.2.2 (by omega) (fun p hp => hno p (by simp [hp]))⟩

/-- A write to a cell keeps the canonical form. -/
theorem Mem.wf_write (m : Mem) (a : Nat) (v : Word) (hw : m.wf = true) (ha : a < 100) :
    (m.write a v).wf = true := by
  unfold Mem.write Mem.wf
  split
  · exact Mem.wfFrom_erase m 0 a hw
  · next hv =>
    exact Mem.wfFrom_insert _ 0 a v (Mem.wfFrom_erase m 0 a hw) (Nat.zero_le a) ha hv
      (Mem.erase_has_no_entry m a)

theorem Mem.read_below (m : Mem) (lo a : Nat) (hw : Mem.wfFrom lo m = true) (h : a < lo) :
    m.read a = Mem.unlisted := by
  induction m generalizing lo with
  | nil => rfl
  | cons p m ih =>
    obtain ⟨b, u⟩ := p
    rw [Mem.wfFrom_cons] at hw
    have : b ≠ a := by omega
    simp [Mem.read, this, ih _ hw.2.2.2 (by omega)]

/-- In a canonical memory an address that is no cell is not listed. -/
theorem Mem.read_outside (m : Mem) (a : Nat) (hw : m.wf = true) (ha : 100 ≤ a) :
    m.read a = Mem.unlisted := by
  suffices ∀ lo, Mem.wfFrom lo m = true → m.read a = Mem.unlisted from this 0 hw
  intro lo hw'
  clear hw
  induction m generalizing lo with
  | nil => rfl
  | cons p m ih =>
    obtain ⟨b, u⟩ := p
    rw [Mem.wfFrom_cons] at hw'
    have : b ≠ a := by omega
    simp [Mem.read, this, ih _ hw'.2.2.2]

theorem Mem.ext_from (m n : Mem) (lo : Nat) (hm : Mem.wfFrom lo m = true) (hn : Mem.wfFrom lo n = true)
    (h : ∀ a, m.read a = n.read a) : m = n := by
  induction m generalizing lo n with
  | nil =>
    cases n with
    | nil => rfl
    | cons q n =>
      obtain ⟨b, u⟩ := q
      rw [Mem.wfFrom_cons] at hn
      exact absurd (h b).symm (by simp [Mem.read, hn.2.2.1])
  | cons p m ih =>
    obtain ⟨b, u⟩ := p
    rw [Mem.wfFrom_cons] at hm
    cases n with
    | nil => exact absurd (h b) (by simp [Mem.read, hm.2.2.1])
    | cons q n =>
      obtain ⟨c, v⟩ := q
      rw [Mem.wfFrom_cons] at hn
      have hbc : b = c := by
        rcases Nat.lt_trichotomy b c with hlt | heq | hgt
        · have hr := h b
          rw [Mem.read_below ((c, v) :: n) c b (by rw [Mem.wfFrom_cons]; exact ⟨le_refl c, hn.2⟩) hlt] at hr
          exact absurd hr (by simp [Mem.read, hm.2.2.1])
        · exact heq
        · have hr := h c
          rw [Mem.read_below ((b, u) :: m) b c (by rw [Mem.wfFrom_cons]; exact ⟨le_refl b, hm.2⟩) hgt] at hr
          exact absurd hr.symm (by simp [Mem.read, hn.2.2.1])
      subst hbc
      have huv : u = v := by simpa [Mem.read] using h b
      subst huv
      congr 1
      refine ih n (b + 1) hm.2.2.2 hn.2.2.2 fun a => ?_
      by_cases ha : b = a
      · subst ha
        rw [Mem.read_below m (b + 1) b hm.2.2.2 (by omega), Mem.read_below n (b + 1) b hn.2.2.2 (by omega)]
      · simpa [Mem.read, ha] using h a

/-- Canonical memories that read alike are equal. -/
theorem Mem.ext_of_read (m n : Mem) (hm : m.wf = true) (hn : n.wf = true)
    (h : ∀ a, m.read a = n.read a) : m = n := Mem.ext_from m n 0 hm hn h

end Sys2Proof.Machine
end

