-- ==== Sys2Proof/Laws/State.lean ====
section
/-! SUPPORT. One lemma per field of State and per update, true by rfl, so that no later proof unfolds an update. -/

namespace Sys2Proof.Machine

variable (s : State)

@[simp] theorem State.setAcc_acc (v : Word) : (s.setAcc v).acc = v := rfl
@[simp] theorem State.setAcc_pc (v : Word) : (s.setAcc v).pc = s.pc := rfl
@[simp] theorem State.setAcc_mem (v : Word) : (s.setAcc v).mem = s.mem := rfl
@[simp] theorem State.setAcc_input (v : Word) : (s.setAcc v).input = s.input := rfl
@[simp] theorem State.setAcc_output (v : Word) : (s.setAcc v).output = s.output := rfl
@[simp] theorem State.setAcc_mode (v : Word) : (s.setAcc v).mode = s.mode := rfl
@[simp] theorem State.setAcc_ir (v : Word) : (s.setAcc v).ir = s.ir := rfl
@[simp] theorem State.setAcc_fpc (v : Word) : (s.setAcc v).fpc = s.fpc := rfl
@[simp] theorem State.setAcc_ctl (v : Word) : (s.setAcc v).ctl = s.ctl := rfl
@[simp] theorem State.setAcc_outcome (v : Word) : (s.setAcc v).outcome = s.outcome := rfl
@[simp] theorem State.setAcc_instrIn (v : Word) : (s.setAcc v).instrIn = s.instrIn := rfl
@[simp] theorem State.setAcc_dbgCmd (v : Word) : (s.setAcc v).dbgCmd = s.dbgCmd := rfl

@[simp] theorem State.setPc_acc (p : Addr) : (s.setPc p).acc = s.acc := rfl
@[simp] theorem State.setPc_pc (p : Addr) : (s.setPc p).pc = p := rfl
@[simp] theorem State.setPc_mem (p : Addr) : (s.setPc p).mem = s.mem := rfl
@[simp] theorem State.setPc_input (p : Addr) : (s.setPc p).input = s.input := rfl
@[simp] theorem State.setPc_output (p : Addr) : (s.setPc p).output = s.output := rfl
@[simp] theorem State.setPc_mode (p : Addr) : (s.setPc p).mode = s.mode := rfl
@[simp] theorem State.setPc_ir (p : Addr) : (s.setPc p).ir = s.ir := rfl
@[simp] theorem State.setPc_fpc (p : Addr) : (s.setPc p).fpc = s.fpc := rfl
@[simp] theorem State.setPc_ctl (p : Addr) : (s.setPc p).ctl = s.ctl := rfl
@[simp] theorem State.setPc_outcome (p : Addr) : (s.setPc p).outcome = s.outcome := rfl
@[simp] theorem State.setPc_instrIn (p : Addr) : (s.setPc p).instrIn = s.instrIn := rfl
@[simp] theorem State.setPc_dbgCmd (p : Addr) : (s.setPc p).dbgCmd = s.dbgCmd := rfl

@[simp] theorem State.setMem_acc (m : Mem) : (s.setMem m).acc = s.acc := rfl
@[simp] theorem State.setMem_pc (m : Mem) : (s.setMem m).pc = s.pc := rfl
@[simp] theorem State.setMem_mem (m : Mem) : (s.setMem m).mem = m := rfl
@[simp] theorem State.setMem_input (m : Mem) : (s.setMem m).input = s.input := rfl
@[simp] theorem State.setMem_output (m : Mem) : (s.setMem m).output = s.output := rfl
@[simp] theorem State.setMem_mode (m : Mem) : (s.setMem m).mode = s.mode := rfl
@[simp] theorem State.setMem_ir (m : Mem) : (s.setMem m).ir = s.ir := rfl
@[simp] theorem State.setMem_fpc (m : Mem) : (s.setMem m).fpc = s.fpc := rfl
@[simp] theorem State.setMem_ctl (m : Mem) : (s.setMem m).ctl = s.ctl := rfl
@[simp] theorem State.setMem_outcome (m : Mem) : (s.setMem m).outcome = s.outcome := rfl
@[simp] theorem State.setMem_instrIn (m : Mem) : (s.setMem m).instrIn = s.instrIn := rfl
@[simp] theorem State.setMem_dbgCmd (m : Mem) : (s.setMem m).dbgCmd = s.dbgCmd := rfl

@[simp] theorem State.setInput_acc (l : List Word) : (s.setInput l).acc = s.acc := rfl
@[simp] theorem State.setInput_pc (l : List Word) : (s.setInput l).pc = s.pc := rfl
@[simp] theorem State.setInput_mem (l : List Word) : (s.setInput l).mem = s.mem := rfl
@[simp] theorem State.setInput_input (l : List Word) : (s.setInput l).input = l := rfl
@[simp] theorem State.setInput_output (l : List Word) : (s.setInput l).output = s.output := rfl
@[simp] theorem State.setInput_mode (l : List Word) : (s.setInput l).mode = s.mode := rfl
@[simp] theorem State.setInput_ir (l : List Word) : (s.setInput l).ir = s.ir := rfl
@[simp] theorem State.setInput_fpc (l : List Word) : (s.setInput l).fpc = s.fpc := rfl
@[simp] theorem State.setInput_ctl (l : List Word) : (s.setInput l).ctl = s.ctl := rfl
@[simp] theorem State.setInput_outcome (l : List Word) : (s.setInput l).outcome = s.outcome := rfl
@[simp] theorem State.setInput_instrIn (l : List Word) : (s.setInput l).instrIn = s.instrIn := rfl
@[simp] theorem State.setInput_dbgCmd (l : List Word) : (s.setInput l).dbgCmd = s.dbgCmd := rfl

@[simp] theorem State.emit_acc (v : Word) : (s.emit v).acc = s.acc := rfl
@[simp] theorem State.emit_pc (v : Word) : (s.emit v).pc = s.pc := rfl
@[simp] theorem State.emit_mem (v : Word) : (s.emit v).mem = s.mem := rfl
@[simp] theorem State.emit_input (v : Word) : (s.emit v).input = s.input := rfl
@[simp] theorem State.emit_output (v : Word) : (s.emit v).output = s.output ++ [v] := rfl
@[simp] theorem State.emit_mode (v : Word) : (s.emit v).mode = s.mode := rfl
@[simp] theorem State.emit_ir (v : Word) : (s.emit v).ir = s.ir := rfl
@[simp] theorem State.emit_fpc (v : Word) : (s.emit v).fpc = s.fpc := rfl
@[simp] theorem State.emit_ctl (v : Word) : (s.emit v).ctl = s.ctl := rfl
@[simp] theorem State.emit_outcome (v : Word) : (s.emit v).outcome = s.outcome := rfl
@[simp] theorem State.emit_instrIn (v : Word) : (s.emit v).instrIn = s.instrIn := rfl
@[simp] theorem State.emit_dbgCmd (v : Word) : (s.emit v).dbgCmd = s.dbgCmd := rfl

@[simp] theorem State.setMode_acc (m : Mode) : (s.setMode m).acc = s.acc := rfl
@[simp] theorem State.setMode_pc (m : Mode) : (s.setMode m).pc = s.pc := rfl
@[simp] theorem State.setMode_mem (m : Mode) : (s.setMode m).mem = s.mem := rfl
@[simp] theorem State.setMode_input (m : Mode) : (s.setMode m).input = s.input := rfl
@[simp] theorem State.setMode_output (m : Mode) : (s.setMode m).output = s.output := rfl
@[simp] theorem State.setMode_mode (m : Mode) : (s.setMode m).mode = m := rfl
@[simp] theorem State.setMode_ir (m : Mode) : (s.setMode m).ir = s.ir := rfl
@[simp] theorem State.setMode_fpc (m : Mode) : (s.setMode m).fpc = s.fpc := rfl
@[simp] theorem State.setMode_ctl (m : Mode) : (s.setMode m).ctl = s.ctl := rfl
@[simp] theorem State.setMode_outcome (m : Mode) : (s.setMode m).outcome = s.outcome := rfl
@[simp] theorem State.setMode_instrIn (m : Mode) : (s.setMode m).instrIn = s.instrIn := rfl
@[simp] theorem State.setMode_dbgCmd (m : Mode) : (s.setMode m).dbgCmd = s.dbgCmd := rfl

@[simp] theorem State.setCtl_acc (c : Ctl) : (s.setCtl c).acc = s.acc := rfl
@[simp] theorem State.setCtl_pc (c : Ctl) : (s.setCtl c).pc = s.pc := rfl
@[simp] theorem State.setCtl_mem (c : Ctl) : (s.setCtl c).mem = s.mem := rfl
@[simp] theorem State.setCtl_input (c : Ctl) : (s.setCtl c).input = s.input := rfl
@[simp] theorem State.setCtl_output (c : Ctl) : (s.setCtl c).output = s.output := rfl
@[simp] theorem State.setCtl_mode (c : Ctl) : (s.setCtl c).mode = s.mode := rfl
@[simp] theorem State.setCtl_ir (c : Ctl) : (s.setCtl c).ir = s.ir := rfl
@[simp] theorem State.setCtl_fpc (c : Ctl) : (s.setCtl c).fpc = s.fpc := rfl
@[simp] theorem State.setCtl_ctl (c : Ctl) : (s.setCtl c).ctl = c := rfl
@[simp] theorem State.setCtl_outcome (c : Ctl) : (s.setCtl c).outcome = s.outcome := rfl
@[simp] theorem State.setCtl_instrIn (c : Ctl) : (s.setCtl c).instrIn = s.instrIn := rfl
@[simp] theorem State.setCtl_dbgCmd (c : Ctl) : (s.setCtl c).dbgCmd = s.dbgCmd := rfl

@[simp] theorem State.latch_acc (w : Word) : (s.latch w).acc = s.acc := rfl
@[simp] theorem State.latch_pc (w : Word) : (s.latch w).pc = s.pc := rfl
@[simp] theorem State.latch_mem (w : Word) : (s.latch w).mem = s.mem := rfl
@[simp] theorem State.latch_input (w : Word) : (s.latch w).input = s.input := rfl
@[simp] theorem State.latch_output (w : Word) : (s.latch w).output = s.output := rfl
@[simp] theorem State.latch_mode (w : Word) : (s.latch w).mode = s.mode := rfl
@[simp] theorem State.latch_ir (w : Word) : (s.latch w).ir = w := rfl
@[simp] theorem State.latch_fpc (w : Word) : (s.latch w).fpc = s.pc := rfl
@[simp] theorem State.latch_ctl (w : Word) : (s.latch w).ctl = s.ctl := rfl
@[simp] theorem State.latch_outcome (w : Word) : (s.latch w).outcome = s.outcome := rfl
@[simp] theorem State.latch_instrIn (w : Word) : (s.latch w).instrIn = s.instrIn := rfl
@[simp] theorem State.latch_dbgCmd (w : Word) : (s.latch w).dbgCmd = s.dbgCmd := rfl

@[simp] theorem State.setInstrIn_acc (l : List Word) : (s.setInstrIn l).acc = s.acc := rfl
@[simp] theorem State.setInstrIn_pc (l : List Word) : (s.setInstrIn l).pc = s.pc := rfl
@[simp] theorem State.setInstrIn_mem (l : List Word) : (s.setInstrIn l).mem = s.mem := rfl
@[simp] theorem State.setInstrIn_input (l : List Word) : (s.setInstrIn l).input = s.input := rfl
@[simp] theorem State.setInstrIn_output (l : List Word) : (s.setInstrIn l).output = s.output := rfl
@[simp] theorem State.setInstrIn_mode (l : List Word) : (s.setInstrIn l).mode = s.mode := rfl
@[simp] theorem State.setInstrIn_ir (l : List Word) : (s.setInstrIn l).ir = s.ir := rfl
@[simp] theorem State.setInstrIn_fpc (l : List Word) : (s.setInstrIn l).fpc = s.fpc := rfl
@[simp] theorem State.setInstrIn_ctl (l : List Word) : (s.setInstrIn l).ctl = s.ctl := rfl
@[simp] theorem State.setInstrIn_outcome (l : List Word) : (s.setInstrIn l).outcome = s.outcome := rfl
@[simp] theorem State.setInstrIn_instrIn (l : List Word) : (s.setInstrIn l).instrIn = l := rfl
@[simp] theorem State.setInstrIn_dbgCmd (l : List Word) : (s.setInstrIn l).dbgCmd = s.dbgCmd := rfl

@[simp] theorem State.setDbgCmd_acc (l : List DbgCmd) : (s.setDbgCmd l).acc = s.acc := rfl
@[simp] theorem State.setDbgCmd_pc (l : List DbgCmd) : (s.setDbgCmd l).pc = s.pc := rfl
@[simp] theorem State.setDbgCmd_mem (l : List DbgCmd) : (s.setDbgCmd l).mem = s.mem := rfl
@[simp] theorem State.setDbgCmd_input (l : List DbgCmd) : (s.setDbgCmd l).input = s.input := rfl
@[simp] theorem State.setDbgCmd_output (l : List DbgCmd) : (s.setDbgCmd l).output = s.output := rfl
@[simp] theorem State.setDbgCmd_mode (l : List DbgCmd) : (s.setDbgCmd l).mode = s.mode := rfl
@[simp] theorem State.setDbgCmd_ir (l : List DbgCmd) : (s.setDbgCmd l).ir = s.ir := rfl
@[simp] theorem State.setDbgCmd_fpc (l : List DbgCmd) : (s.setDbgCmd l).fpc = s.fpc := rfl
@[simp] theorem State.setDbgCmd_ctl (l : List DbgCmd) : (s.setDbgCmd l).ctl = s.ctl := rfl
@[simp] theorem State.setDbgCmd_outcome (l : List DbgCmd) : (s.setDbgCmd l).outcome = s.outcome := rfl
@[simp] theorem State.setDbgCmd_instrIn (l : List DbgCmd) : (s.setDbgCmd l).instrIn = s.instrIn := rfl
@[simp] theorem State.setDbgCmd_dbgCmd (l : List DbgCmd) : (s.setDbgCmd l).dbgCmd = l := rfl

@[simp] theorem State.raise_acc (o : RunOutcome) : (s.raise o).acc = s.acc := rfl
@[simp] theorem State.raise_pc (o : RunOutcome) : (s.raise o).pc = s.pc := rfl
@[simp] theorem State.raise_mem (o : RunOutcome) : (s.raise o).mem = s.mem := rfl
@[simp] theorem State.raise_input (o : RunOutcome) : (s.raise o).input = s.input := rfl
@[simp] theorem State.raise_output (o : RunOutcome) : (s.raise o).output = s.output := rfl
@[simp] theorem State.raise_mode (o : RunOutcome) : (s.raise o).mode = s.mode := rfl
@[simp] theorem State.raise_ir (o : RunOutcome) : (s.raise o).ir = s.ir := rfl
@[simp] theorem State.raise_fpc (o : RunOutcome) : (s.raise o).fpc = s.fpc := rfl
@[simp] theorem State.raise_ctl (o : RunOutcome) : (s.raise o).ctl = .done := rfl
@[simp] theorem State.raise_outcome (o : RunOutcome) : (s.raise o).outcome = o := rfl
@[simp] theorem State.raise_instrIn (o : RunOutcome) : (s.raise o).instrIn = s.instrIn := rfl
@[simp] theorem State.raise_dbgCmd (o : RunOutcome) : (s.raise o).dbgCmd = s.dbgCmd := rfl

@[simp] theorem State.advance_acc : s.advance.acc = s.acc := rfl
@[simp] theorem State.advance_pc : s.advance.pc = s.pc + 1 := rfl
@[simp] theorem State.advance_mem : s.advance.mem = s.mem := rfl
@[simp] theorem State.advance_input : s.advance.input = s.input := rfl
@[simp] theorem State.advance_output : s.advance.output = s.output := rfl
@[simp] theorem State.advance_mode : s.advance.mode = s.mode := rfl
@[simp] theorem State.advance_ir : s.advance.ir = s.ir := rfl
@[simp] theorem State.advance_fpc : s.advance.fpc = s.fpc := rfl
@[simp] theorem State.advance_ctl : s.advance.ctl = s.ctl := rfl
@[simp] theorem State.advance_outcome : s.advance.outcome = s.outcome := rfl
@[simp] theorem State.advance_instrIn : s.advance.instrIn = s.instrIn := rfl
@[simp] theorem State.advance_dbgCmd : s.advance.dbgCmd = s.dbgCmd := rfl

/-! Ending a cycle changes `ctl` at most (R65). -/

@[simp] theorem State.endCycle_acc : s.endCycle.acc = s.acc := by
  unfold State.endCycle; split <;> rfl
@[simp] theorem State.endCycle_pc : s.endCycle.pc = s.pc := by
  unfold State.endCycle; split <;> rfl
@[simp] theorem State.endCycle_mem : s.endCycle.mem = s.mem := by
  unfold State.endCycle; split <;> rfl
@[simp] theorem State.endCycle_input : s.endCycle.input = s.input := by
  unfold State.endCycle; split <;> rfl
@[simp] theorem State.endCycle_output : s.endCycle.output = s.output := by
  unfold State.endCycle; split <;> rfl
@[simp] theorem State.endCycle_mode : s.endCycle.mode = s.mode := by
  unfold State.endCycle; split <;> rfl
@[simp] theorem State.endCycle_ir : s.endCycle.ir = s.ir := by
  unfold State.endCycle; split <;> rfl
@[simp] theorem State.endCycle_fpc : s.endCycle.fpc = s.fpc := by
  unfold State.endCycle; split <;> rfl
@[simp] theorem State.endCycle_outcome : s.endCycle.outcome = s.outcome := by
  unfold State.endCycle; split <;> rfl
@[simp] theorem State.endCycle_instrIn : s.endCycle.instrIn = s.instrIn := by
  unfold State.endCycle; split <;> rfl
@[simp] theorem State.endCycle_dbgCmd : s.endCycle.dbgCmd = s.dbgCmd := by
  unfold State.endCycle; split <;> rfl

@[simp] theorem State.endCycle_ctl : s.endCycle.ctl = if s.ctl = .done then .done else .fetch := by
  unfold State.endCycle; split <;> simp_all

end Sys2Proof.Machine
end

