-- ==== Sys2Proof/Laws/Ops.lean ====
section
/-! SUPPORT. For each shared operation, everything it can do, said once; the provers cite these and do not unfold it. -/

namespace Sys2Proof.Machine

/-- The limits of a word are those of `WORD_W` bits (R11). -/
theorem word_limits :
    Config.wordMin = -(2 ^ (Config.wordW - 1)) ∧ Config.wordMax = 2 ^ (Config.wordW - 1) - 1 := by decide

/-- A word has `WORD_W` bits and an address `CTR_W` bits (R7, R8). -/
theorem word_and_addr_widths : Word = BitVec Config.wordW ∧ Addr = BitVec Config.ctrW := ⟨rfl, rfl⟩

theorem representable_iff (v : Int) :
    representable v = true ↔ -2147483648 ≤ v ∧ v ≤ 2147483647 := by
  simp only [representable, Bool.and_eq_true, decide_eq_true_eq]
  exact Iff.rfl

/-- The word of a representable integer has that integer as its value. -/
theorem toInt_ofInt (v : Int) (h : representable v = true) : (BitVec.ofInt 32 v).toInt = v := by
  rw [representable_iff] at h
  rw [BitVec.toInt_ofInt, Int.bmod_eq_of_le] <;> norm_num <;> omega

/-- The value of every word is representable (R11). -/
theorem representable_toInt (w : Word) : representable w.toInt = true := by
  rw [representable_iff]
  have h1 := BitVec.le_toInt w
  have h2 := BitVec.toInt_lt (x := w)
  norm_num at h1 h2
  omega

theorem notPositive_iff (v : Word) : notPositive v = true ↔ v.toInt ≤ 0 := by simp [notPositive]

theorem notZero_iff (v : Word) : notZero v = true ↔ v ≠ 0 := by simp [notZero]

theorem withCell_of_cell (a : Addr) (s : State) (k : Word → Result) (h : isCell a = true) :
    withCell a s k = k (s.mem.read a.toNat) := by simp [withCell, h]

theorem storeCell_of_cell (a : Addr) (v : Word) (s : State) (h : isCell a = true) :
    storeCell a v s = .next (s.setMem (s.mem.write a.toNat v)) := by simp [storeCell, h]

theorem branchIf_of_cell (c : Bool) (a : Addr) (s : State) (h : isCell a = true) :
    branchIf c a s = .next (if c then s.setPc a else s) := by simp [branchIf, h]

theorem fetch_of_cell (s : State) (h : isCell s.pc = true) :
    fetch s = .next ((s.latch (s.mem.read s.pc.toNat)).setCtl (afterFetch s.mode)) := by
  simp [fetch, h]

theorem withCell_next {a : Addr} {s t : State} {k : Word → Result} (h : withCell a s k = .next t) :
    isCell a = true ∧ k (s.mem.read a.toNat) = .next t := by
  unfold withCell at h
  split at h
  · exact ⟨‹_›, h⟩
  · cases h

theorem storeCell_next {a : Addr} {v : Word} {s t : State} (h : storeCell a v s = .next t) :
    isCell a = true ∧ t = s.setMem (s.mem.write a.toNat v) := by
  unfold storeCell at h
  split at h
  · cases h; exact ⟨‹_›, rfl⟩
  · cases h

theorem branchIf_next {c : Bool} {a : Addr} {s t : State} (h : branchIf c a s = .next t) :
    isCell a = true ∧ ((c = true ∧ t = s.setPc a) ∨ (c = false ∧ t = s)) := by
  unfold branchIf at h
  split at h
  · cases h; refine ⟨‹_›, ?_⟩; cases c <;> simp
  · cases h

theorem accumulate_next {v : Int} {s t : State} (h : accumulate v s = .next t) :
    (representable v = true ∧ t = s.setAcc (BitVec.ofInt 32 v)) ∨
      (representable v = false ∧ t = s.raise .arithOverflow) := by
  unfold accumulate at h
  split at h <;> cases h
  · exact .inl ⟨‹_›, rfl⟩
  · exact .inr ⟨by simpa using ‹¬ representable v = true›, rfl⟩

theorem andThen_next {r : Result} {f : State → Result} {t : State} (h : andThen r f = .next t) :
    ∃ u, r = .next u ∧ f u = .next t := by
  cases r with
  | next u => exact ⟨u, rfl, h⟩
  | fault e => cases h
  | refused e => cases h

theorem overflowed_iff (s : State) : overflowed s = true ↔ s.mode ≠ .cli ∧ 99 < s.pc.toNat := by
  simp [overflowed]

/-- What an instruction's handler can do, by kind: the inversion of `exec`. -/
theorem exec_next {i : Instr} {s t : State} (h : exec i s = .next t) :
    (i = .halt ∧ t = s.raise .halted) ∨
    (∃ a v, (i = .add a ∨ i = .sub a) ∧ isCell a = true ∧ t = s.setAcc v) ∨
    (∃ a, (i = .add a ∨ i = .sub a) ∧ isCell a = true ∧ t = s.raise .arithOverflow) ∨
    (∃ a, i = .sto a ∧ isCell a = true ∧ t = s.setMem (s.mem.write a.toNat s.acc)) ∨
    (∃ a, i = .lda a ∧ isCell a = true ∧ t = s.setAcc (s.mem.read a.toNat)) ∨
    (∃ a, (i = .bra a ∨ i = .brz a ∨ i = .brp a) ∧ isCell a = true ∧ (t = s.setPc a ∨ t = s)) ∨
    (i = .inp ∧ s.input = [] ∧ t = s) ∨
    (∃ v rest, i = .inp ∧ s.input = v :: rest ∧ t = (s.setAcc v).setInput rest) ∨
    (i = .outp ∧ t = s.emit s.acc) := by
  cases i with
  | halt => cases h; exact .inl ⟨rfl, rfl⟩
  | add a =>
    simp only [exec, execAdd] at h
    obtain ⟨ha, h⟩ := withCell_next h
    obtain ⟨-, rfl⟩ | ⟨-, rfl⟩ := accumulate_next h
    · exact .inr (.inl ⟨a, _, .inl rfl, ha, rfl⟩)
    · exact .inr (.inr (.inl ⟨a, .inl rfl, ha, rfl⟩))
  | sub a =>
    simp only [exec, execSub] at h
    obtain ⟨ha, h⟩ := withCell_next h
    obtain ⟨-, rfl⟩ | ⟨-, rfl⟩ := accumulate_next h
    · exact .inr (.inl ⟨a, _, .inr rfl, ha, rfl⟩)
    · exact .inr (.inr (.inl ⟨a, .inr rfl, ha, rfl⟩))
  | sto a =>
    obtain ⟨ha, rfl⟩ := storeCell_next h
    exact .inr (.inr (.inr (.inl ⟨a, rfl, ha, rfl⟩)))
  | lda a =>
    simp only [exec, execLda] at h
    obtain ⟨ha, h⟩ := withCell_next h
    cases h
    exact .inr (.inr (.inr (.inr (.inl ⟨a, rfl, ha, rfl⟩))))
  | bra a =>
    obtain ⟨ha, ⟨-, rfl⟩ | ⟨-, rfl⟩⟩ := branchIf_next h
    · exact .inr (.inr (.inr (.inr (.inr (.inl ⟨a, by simp, ha, .inl rfl⟩)))))
    · exact .inr (.inr (.inr (.inr (.inr (.inl ⟨a, by simp, ha, .inr rfl⟩)))))
  | brz a =>
    obtain ⟨ha, ⟨-, rfl⟩ | ⟨-, rfl⟩⟩ := branchIf_next h
    · exact .inr (.inr (.inr (.inr (.inr (.inl ⟨a, by simp, ha, .inl rfl⟩)))))
    · exact .inr (.inr (.inr (.inr (.inr (.inl ⟨a, by simp, ha, .inr rfl⟩)))))
  | brp a =>
    obtain ⟨ha, ⟨-, rfl⟩ | ⟨-, rfl⟩⟩ := branchIf_next h
    · exact .inr (.inr (.inr (.inr (.inr (.inl ⟨a, by simp, ha, .inl rfl⟩)))))
    · exact .inr (.inr (.inr (.inr (.inr (.inl ⟨a, by simp, ha, .inr rfl⟩)))))
  | inp =>
    simp only [exec, execInp] at h
    split at h <;> cases h
    · exact .inr (.inr (.inr (.inr (.inr (.inr (.inl ⟨rfl, ‹_›, rfl⟩))))))
    · exact .inr (.inr (.inr (.inr (.inr (.inr (.inr (.inl ⟨_, _, rfl, ‹_›, rfl⟩)))))))
  | outp => cases h; exact .inr (.inr (.inr (.inr (.inr (.inr (.inr (.inr ⟨rfl, rfl⟩)))))))

/-- What steps 3 to 7 of a cycle can do: the inversion of `execute`. -/
theorem execute_next {s t : State} (h : execute s = .next t) :
    (decode s.ir = .ok .halt ∧ t = s.raise .halted) ∨
    (decode s.ir ≠ .ok .halt ∧ overflowed s.advance = true ∧ t = s.advance.raise .overflow) ∨
    (overflowed s.advance = false ∧ (∃ e, decode s.ir = .error e) ∧
      t = s.advance.raise .illegalInstruction) ∨
    (overflowed s.advance = false ∧
      ∃ i u, decode s.ir = .ok i ∧ i ≠ .halt ∧ exec i s.advance = .next u ∧ t = u.endCycle) := by
  unfold execute at h
  split at h
  · next e he =>
    unfold advanceThen at h
    split at h <;> cases h
    · exact .inr (.inl ⟨by simp [he], ‹_›, rfl⟩)
    · exact .inr (.inr (.inl ⟨by simpa using ‹¬ overflowed s.advance = true›, ⟨e, he⟩, rfl⟩))
  · next i hi =>
    split at h
    · next hh => subst hh; cases h; exact .inl ⟨hi, rfl⟩
    · next hh =>
      unfold advanceThen at h
      split at h
      · cases h; exact .inr (.inl ⟨by simp [hi, hh], ‹_›, rfl⟩)
      · obtain ⟨u, hu, h⟩ := andThen_next h
        cases h
        exact .inr (.inr (.inr ⟨by simpa using ‹¬ overflowed s.advance = true›, i, u, hi, hh, hu, rfl⟩))

/-- A cycle that ran to its end leaves `EXEC`: for `FETCH`, or for `DONE` if something was raised (R65, R66). -/
theorem execute_leaves_exec {s t : State} (h : execute s = .next t) : t.ctl ≠ .exec := by
  obtain ⟨-, rfl⟩ | ⟨-, -, rfl⟩ | ⟨-, -, rfl⟩ | ⟨-, i, u, -, -, -, rfl⟩ := execute_next h
  · simp
  · simp
  · simp
  · rw [State.endCycle_ctl]; split <;> simp

/-- What a step can do: the inversion of `step`, by the row of R66. `execute` follows a row that leads to `EXEC`. -/
theorem step_next {s t : State} (h : step s = .next t) :
    (s.ctl = .done ∧ t = s) ∨
    (s.ctl = .fetch ∧ s.mode = .cli ∧ t = s.setCtl .cliWait) ∨
    (s.ctl = .fetch ∧ s.mode = .debug ∧ isCell s.pc = true ∧
      t = (s.latch (s.mem.read s.pc.toNat)).setCtl .dbgWait) ∨
    (s.ctl = .fetch ∧ s.mode = .mem ∧ isCell s.pc = true ∧
      execute ((s.latch (s.mem.read s.pc.toNat)).setCtl .exec) = .next t) ∨
    (s.ctl = .cliWait ∧ s.instrIn = [] ∧ t = s) ∨
    (s.ctl = .cliWait ∧ ∃ w rest, s.instrIn = w :: rest ∧
      execute (((s.setInstrIn rest).latch w).setCtl .exec) = .next t) ∨
    (s.ctl = .dbgWait ∧ s.dbgCmd = [] ∧ t = s) ∨
    (s.ctl = .dbgWait ∧ ∃ c rest, s.dbgCmd = c :: rest ∧
      ((c = .help ∨ c = .other) ∧ t = s.setDbgCmd rest ∨
       c = .quit ∧ t = (s.setDbgCmd rest).raise .terminated ∨
       c = .step ∧ execute ((s.setDbgCmd rest).setCtl .exec) = .next t ∨
       c = .cont ∧ execute (((s.setDbgCmd rest).setMode .mem).setCtl .exec) = .next t)) ∨
    (s.ctl = .exec ∧ execute s = .next t) := by
  unfold step cycleStep transition at h
  cases hc : s.ctl with
  | fetch =>
    simp only [hc, beginCycle] at h
    cases hm : s.mode with
    | cli => simp [hm, andThen] at h; simp [h]
    | debug =>
      simp only [hm, fetch] at h
      split at h <;> simp_all [andThen, afterFetch]
    | mem =>
      simp only [hm, fetch] at h
      split at h <;> simp_all [andThen, afterFetch]
  | cliWait =>
    simp only [hc, takeWord, andThen] at h
    split at h <;> simp_all
  | dbgWait =>
    simp only [hc, debuggerTurn, andThen] at h
    cases hd : s.dbgCmd with
    | nil => simp_all
    | cons c rest => cases c <;> simp_all [debuggerCommand]
  | exec =>
    simp only [hc] at h
    obtain ⟨u, hu, h⟩ := andThen_next h
    rw [if_neg (execute_leaves_exec hu)] at h
    cases h
    simp [hu]
  | done => simp_all [andThen]

end Sys2Proof.Machine
end

