-- ==== Sys2Proof/Laws/Cycle.lean ====
section
/-! SUPPORT. The step as an equation, for each way it reaches step 3 of the cycle, and the four ways steps 3 to 7 end. -/

namespace Sys2Proof.Machine

theorem modeAfter_ne_cli (c : DbgCmd) : modeAfter c ≠ .cli := by unfold modeAfter; split <;> simp

/-- A step that reaches `EXEC` is the execution of the latched word. -/
theorem step_of_reachesExec {s e : State} (h : ReachesExec s e) : step s = execute e := by
  obtain ⟨f, w, ⟨hc, hm, rfl, hf, rfl⟩, rfl⟩ | ⟨w, rest, ⟨hc, hm, hi⟩, rfl⟩ |
    ⟨c, rest, ⟨hc, hm, hp, hd⟩, rfl | rfl, rfl⟩ := h
  · simp [step, cycleStep, transition, hc, beginCycle, hm, fetch_of_cell _ hf, andThen, afterFetch,
      State.latch, State.setCtl]
  · simp [step, cycleStep, transition, hc, takeWord, hi, andThen, State.latch, State.setCtl, State.setInstrIn]
  · simp [step, cycleStep, transition, hc, debuggerTurn, hd, debuggerCommand, andThen, State.setCtl,
      State.setDbgCmd, modeAfter, hm]
  · simp [step, cycleStep, transition, hc, debuggerTurn, hd, debuggerCommand, andThen, State.setCtl,
      State.setDbgCmd, State.setMode, modeAfter]

theorem step_atFetch {s : State} {f : Addr} {w : Word} (h : AtFetch s f w) :
    step s = execute { s with ir := w, fpc := f, ctl := .exec } :=
  step_of_reachesExec (.inl ⟨f, w, h, rfl⟩)

theorem step_atCliWord {s : State} {w : Word} {rest : List Word} (h : AtCliWord s w rest) :
    step s = execute { s with instrIn := rest, ir := w, fpc := s.pc, ctl := .exec } :=
  step_of_reachesExec (.inr (.inl ⟨w, rest, h, rfl⟩))

theorem step_atPrompt {s : State} {c : DbgCmd} {rest : List DbgCmd} (h : AtPrompt s c rest)
    (hc : c = .step ∨ c = .cont) :
    step s = execute { s with dbgCmd := rest, mode := modeAfter c, ctl := .exec } :=
  step_of_reachesExec (.inr (.inr ⟨c, rest, h, hc, rfl⟩))

theorem step_of_exec {s : State} (h : s.ctl = .exec) : step s = execute s := by
  unfold step cycleStep transition
  simp only [h]
  cases he : execute s with
  | next t => simp [andThen, execute_leaves_exec he]
  | fault e => rfl
  | refused e => rfl

/-- A row of R66 that leads to `EXEC`: the step is the step from the state that row gives. -/
theorem step_of_transition_exec {s e : State} (h : transition s = .next e) (he : e.ctl = .exec) :
    step s = step e := by
  rw [step_of_exec he]; simp [step, cycleStep, h, andThen, he]

theorem execute_halt (s : State) (h : decode s.ir = .ok .halt) : execute s = .next (s.raise .halted) := by
  simp [execute, h, exec, execHalt]

theorem execute_overflow (s : State) (h : decode s.ir ≠ .ok .halt) (ho : overflowed s.advance = true) :
    execute s = .next (s.advance.raise .overflow) := by
  unfold execute
  split
  · simp [advanceThen, ho]
  · next i hi =>
    rw [if_neg (by rintro rfl; exact h hi)]
    simp [advanceThen, ho]

theorem execute_illegal (s : State) {x : IllegalWord} (h : decode s.ir = .error x)
    (ho : overflowed s.advance = false) :
    execute s = .next (s.advance.raise .illegalInstruction) := by
  simp [execute, h, advanceThen, ho]

theorem execute_dispatch (s : State) {i : Instr} (h : decode s.ir = .ok i) (hi : i ≠ .halt)
    (ho : overflowed s.advance = false) : execute s = dispatch i s.advance := by
  simp [execute, h, hi, advanceThen, ho]

/-- When the overflow check passes, by the advanced Counter (R64). -/
theorem overflowed_advance_of_advanced (s : State) (h : s.mode = .cli ∨ (s.pc + 1).toNat ≤ 99) :
    overflowed s.advance = false := by
  rw [← Bool.not_eq_true, overflowed_iff]
  rintro ⟨hm, hp⟩
  rcases h with h | h
  · exact hm h
  · exact absurd hp (Nat.not_lt.2 h)

/-- The overflow check passes at every fetch address below 99. -/
theorem overflowed_advance_of_le (s : State) (h : s.pc.toNat ≤ 98) : overflowed s.advance = false := by
  rw [← Bool.not_eq_true, overflowed_iff]
  simp
  intro _
  omega

/-- The overflow check passes always in `CLI` mode. -/
theorem overflowed_advance_of_cli (s : State) (h : s.mode = .cli) : overflowed s.advance = false := by
  simp [overflowed, h]

/-- The overflow check fails at fetch address 99 outside `CLI` mode. -/
theorem overflowed_advance_of_last (s : State) (h : s.mode ≠ .cli) (hp : s.pc = 99) :
    overflowed s.advance = true := by
  rw [overflowed_iff]
  simp [h, hp]

end Sys2Proof.Machine
end

