-- ==== Sys2Proof/Laws/PerInstr.lean ====
section
/-! SUPPORT. Laws about every instruction as syntax, one lemma per constructor. The family `EncodeRange`: the canonical word
of a well-formed instruction is a three-digit number (R48), so the decoder reads it by its digits. -/

namespace Sys2Proof.Laws.EncodeRange

/-- The canonical word of `i` is the word of a number 0 to 999. -/
def Statement (i : Instr) : Prop := i.wf = true → ∃ n, n ≤ 999 ∧ encode i = BitVec.ofNat 32 n

theorem halt : Statement .halt := fun _ => ⟨0, by omega, rfl⟩

theorem add (a : Addr) : Statement (.add a) := fun h =>
  ⟨100 + a.toNat, by have := (isCell_iff a).1 h; omega, rfl⟩

theorem sub (a : Addr) : Statement (.sub a) := fun h =>
  ⟨200 + a.toNat, by have := (isCell_iff a).1 h; omega, rfl⟩

theorem sto (a : Addr) : Statement (.sto a) := fun h =>
  ⟨300 + a.toNat, by have := (isCell_iff a).1 h; omega, rfl⟩

theorem lda (a : Addr) : Statement (.lda a) := fun h =>
  ⟨500 + a.toNat, by have := (isCell_iff a).1 h; omega, rfl⟩

theorem bra (a : Addr) : Statement (.bra a) := fun h =>
  ⟨600 + a.toNat, by have := (isCell_iff a).1 h; omega, rfl⟩

theorem brz (a : Addr) : Statement (.brz a) := fun h =>
  ⟨700 + a.toNat, by have := (isCell_iff a).1 h; omega, rfl⟩

theorem brp (a : Addr) : Statement (.brp a) := fun h =>
  ⟨800 + a.toNat, by have := (isCell_iff a).1 h; omega, rfl⟩

theorem inp : Statement .inp := fun _ => ⟨901, by omega, rfl⟩

theorem outp : Statement .outp := fun _ => ⟨902, by omega, rfl⟩

end Sys2Proof.Laws.EncodeRange
end

