-- ==== Sys2Proof/Laws/Run.lean ====
section
/-! SUPPORT. Runs of many steps: one step at the front, two runs in a row, and the induction over a run, packaged once. -/

namespace Sys2Proof.Machine

@[simp] theorem run_zero (s : State) : run 0 s = .next s := rfl

theorem run_succ (k : Nat) (s : State) : run (k + 1) s = andThen (step s) (run k) := rfl

theorem run_succ_of_step {s t : State} (k : Nat) (h : step s = .next t) :
    run (k + 1) s = run k t := by
  rw [run_succ, h]; rfl

theorem run_succ_next {k : Nat} {s t : State} (h : run (k + 1) s = .next t) :
    ∃ u, step s = .next u ∧ run k u = .next t := by
  rw [run_succ] at h; exact andThen_next h

/-- A run of `j` and then of `k` steps is a run of `j + k`. -/
theorem run_add {j k : Nat} {s t : State} (h : run j s = .next t) :
    run (j + k) s = run k t := by
  induction j generalizing s with
  | zero => rw [Nat.zero_add]; cases h; rfl
  | succ j ih =>
    obtain ⟨u, hu, h⟩ := run_succ_next h
    rw [Nat.succ_add_eq_add_succ, Nat.add_succ, run_succ_of_step _ hu, ih h]

/-- What every step keeps, every run keeps. -/
theorem run_keeps {P : State → Prop} (hP : ∀ s t, P s → step s = .next t → P t) {k : Nat} {s t : State}
    (hs : P s) (h : run k s = .next t) : P t := by
  induction k generalizing s with
  | zero => cases h; exact hs
  | succ k ih => obtain ⟨u, hu, h⟩ := run_succ_next h; exact ih (hP s u hs hu) h

/-- A state that steps to itself stays as it is. -/
theorem run_of_fixed {s : State} (h : step s = .next s) (k : Nat) : run k s = .next s := by
  induction k with
  | zero => rfl
  | succ k ih => rw [run_succ_of_step k h, ih]

theorem host_run_next (M : Host.Core) (k : Nat) (s t : M.State) (h : M.step s = .next t) :
    M.run (k + 1) s = M.run k t := by simp [Host.Core.run, h]

theorem host_run_fault (M : Host.Core) (k : Nat) (s : M.State) (e : M.Fault) (h : M.step s = .fault e) :
    M.run (k + 1) s = .fault e := by simp [Host.Core.run, h]

theorem host_run_refused (M : Host.Core) (k : Nat) (s : M.State) (e : M.Refusal) (h : M.step s = .refused e) :
    M.run (k + 1) s = .refused e := by simp [Host.Core.run, h]

/-- The model's `run` is the host's. -/
theorem core_run_eq (k : Nat) (s : State) : Host.Core.run Sys2Proof.core k s = run k s := by
  induction k generalizing s with
  | zero => rfl
  | succ k ih =>
    cases h : step s with
    | next t =>
      exact (host_run_next Sys2Proof.core k s t h).trans ((ih t).trans (run_succ_of_step k h).symm)
    | fault e =>
      exact (host_run_fault Sys2Proof.core k s e h).trans (by rw [run_succ, h]; rfl)
    | refused e =>
      exact (host_run_refused Sys2Proof.core k s e h).trans (by rw [run_succ, h]; rfl)

end Sys2Proof.Machine
end

