-- ==== Sys2Proof/Tests/Slice0.lean ====
section
/-! SUPPORT. The model's own tests, each expected result from the spec (mostly 95_test_vectors.md, named in the comment),
and a witness for the hypotheses of each statement. -/

namespace Sys2Proof.Tests

open Sys2Proof Sys2Proof.Machine

/-! ## Small states -/

/-- Reset, with `w` in cell `f`, `pc` = `f` and `acc` in the Accumulator. -/
def memState (f : Addr) (w acc : Word) : State :=
  { State.reset with pc := f, mem := Mem.write [] f.toNat w, acc := acc }

/-- `memState` with `v` in cell `b` too. -/
def memState2 (f : Addr) (w acc : Word) (b : Nat) (v : Word) : State :=
  { memState f w acc with mem := (memState f w acc).mem.write b v }

/-- A run in `CLI` mode, held for a word, with `w` delivered and the Counter at `p`. -/
def cliState (p : Addr) (w : Word) : State :=
  { State.reset with mode := .cli, ctl := .cliWait, pc := p, instrIn := [w] }

/-- A run in `DEBUG` mode, held at the prompt with `w` fetched from cell `f` and command `c` given. -/
def promptState (f : Addr) (w : Word) (c : DbgCmd) : State :=
  { State.reset with mode := .debug, ctl := .dbgWait, pc := f, fpc := f, ir := w,
                     mem := Mem.write [] f.toNat w, dbgCmd := [c] }

/-- One field of the next state. -/
def after {α : Type} (r : Result) (f : State → α) : Option α := (nextOf r).map f

/-! ## Well-formed terms: each check refuses an ill-formed term -/

theorem test_wf_add : (Instr.add 100).wf = false ∧ (Instr.add 99).wf = true := by decide
theorem test_wf_sub : (Instr.sub 100).wf = false ∧ (Instr.sub 99).wf = true := by decide
theorem test_wf_sto : (Instr.sto 127).wf = false ∧ (Instr.sto 0).wf = true := by decide
theorem test_wf_lda : (Instr.lda 100).wf = false ∧ (Instr.lda 99).wf = true := by decide
theorem test_wf_bra : (Instr.bra 100).wf = false ∧ (Instr.bra 99).wf = true := by decide
theorem test_wf_brz : (Instr.brz 100).wf = false ∧ (Instr.brz 99).wf = true := by decide
theorem test_wf_brp : (Instr.brp 100).wf = false ∧ (Instr.brp 99).wf = true := by decide
theorem test_mem_not_canonical :
    Mem.wf [(1, 5), (1, 6)] = false ∧ Mem.wf [(1, 0)] = false ∧ Mem.wf [(100, 5)] = false := by decide

/-! ## Decoding: one word for each constructor, written from the opcode map of 30_encoding.md -/

theorem test_decode_halt : decode 0 = .ok .halt ∧ decode 57 = .ok .halt := by decide
theorem test_decode_add : decode 197 = .ok (.add 97) := by decide
theorem test_decode_sub : decode 218 = .ok (.sub 18) := by decide
theorem test_decode_sto : decode 399 = .ok (.sto 99) := by decide
theorem test_decode_lda : decode 598 = .ok (.lda 98) := by decide
theorem test_decode_bra : decode 607 = .ok (.bra 7) := by decide
theorem test_decode_brz : decode 716 = .ok (.brz 16) := by decide
theorem test_decode_brp : decode 805 = .ok (.brp 5) := by decide
theorem test_decode_inp : decode 901 = .ok .inp := by decide
theorem test_decode_outp : decode 902 = .ok .outp := by decide
theorem test_decode_illegal :
    decode 450 = .error .opcodeFour ∧ decode 900 = .error .unknownKey ∧
    decode (-5) = .error .negative ∧ decode 1901 = .error .aboveRange := by decide
theorem test_encode : encode (.brz 16) = 716 ∧ encode (.sto 99) = 399 ∧ encode .halt = 0 := by decide
theorem test_decodeTableWord :
    decodeTableWord 8 0 = some .halt ∧ decodeTableWord 8 100 = some (.add 0) ∧
    decodeTableWord 16 901 = some .inp ∧ decodeTableWord 16 400 = none := by decide

/-! ## Instructions -/

/-- ADD-4: no three-digit wrap. -/
theorem test_add_no_wrap : after (step (memState2 0 105 999 5 1)) (·.acc) = some 1000 := by decide
/-- ADD-6: the largest word plus 1. -/
theorem test_add_overflow :
    after (step (memState2 1 104 2147483647 4 1)) (fun t => (t.acc, t.outcome, t.pc, t.fpc)) =
      some (2147483647, .arithOverflow, 2, 1) := by decide
/-- SUB-1: the order of the operands. -/
theorem test_sub_order : after (step (memState2 0 218 6 18 1)) (·.acc) = some 5 := by decide
/-- SUB-5: 0 minus the least word. -/
theorem test_sub_overflow :
    after (step (memState2 0 218 0 18 (-2147483648))) (fun t => (t.acc, t.outcome)) =
      some (0, .arithOverflow) := by decide
/-- STO-1. -/
theorem test_sto : after (step (memState 2 399 5)) (fun t => (t.mem.read 99, t.acc, t.pc)) =
    some (5, 5, 3) := by decide
/-- STO-3: a store to the next cell is the next instruction. -/
theorem test_sto_next_cell :
    after (run 2 (memState 4 305 902)) (·.output) = some [902] := by decide
/-- LDA-1. -/
theorem test_lda : after (step (memState2 7 598 0 98 6)) (·.acc) = some 6 := by decide
/-- LDA-3: the instruction's own cell. -/
theorem test_lda_own_cell : after (step (memState 5 505 0)) (·.acc) = some 505 := by decide
/-- BRA-1. -/
theorem test_bra : after (step (memState 0 610 0)) (·.pc) = some 10 := by decide
/-- BRZ-2: taken on a negative Accumulator. -/
theorem test_brz_negative : after (step (memState 1 716 (-5))) (·.pc) = some 16 := by decide
/-- BRZ-3: not taken on 1. -/
theorem test_brz_positive : after (step (memState 1 716 1)) (·.pc) = some 2 := by decide
/-- BRP-2: taken on a negative Accumulator. -/
theorem test_brp_negative : after (step (memState 1 805 (-3))) (·.pc) = some 5 := by decide
/-- BRP-1: not taken on 0. -/
theorem test_brp_zero : after (step (memState 1 805 0)) (·.pc) = some 2 := by decide
/-- INP-1. -/
theorem test_inp : after (step { memState 0 901 0 with input := [5, 6] }) (fun t => (t.acc, t.input)) =
    some (5, [6]) := by decide
/-- INP-3: an empty Input is no error. -/
theorem test_inp_empty :
    after (step { memState 0 901 42 with output := [1] }) (fun t => (t.acc, t.input, t.output, t.pc)) =
      some (42, [], [1], 1) := by decide
/-- OUT-3. -/
theorem test_outp : after (step { memState 0 902 (-1000) with output := [1] }) (·.output) =
    some [1, -1000] := by decide
/-- CYC-2: any word 0 to 99 halts. -/
theorem test_halt : after (step (memState 0 57 0)) (fun t => (t.outcome, t.ctl, t.pc)) =
    some (.halted, .done, 0) := by decide

/-! ## The cycle, the modes and the debugger -/

/-- CYC-3: a halt word in cell 99. -/
theorem test_halt_at_99 : after (step (memState 99 5 0)) (fun t => (t.outcome, t.pc)) =
    some (.halted, 99) := by decide
/-- CYC-4: OUTP in cell 99 is not executed. -/
theorem test_overflow : after (step (memState 99 902 902)) (fun t => (t.outcome, t.pc, t.fpc, t.output)) =
    some (.overflow, 100, 99, []) := by decide
/-- CYC-6: the overflow check comes before the illegal word. -/
theorem test_overflow_first : after (step (memState 99 400 0)) (·.outcome) = some .overflow := by decide
/-- CYC-5. -/
theorem test_illegal : after (step (memState 2 400 0)) (fun t => (t.outcome, t.pc, t.fpc, t.ir)) =
    some (.illegalInstruction, 3, 2, 400) := by decide
/-- R19: the advance is modulo 128 in `CLI` mode. -/
theorem test_cli_wrap : after (step (cliState 127 902)) (fun t => (t.pc, t.output, t.ctl)) =
    some (0, [0], .fetch) := by decide
/-- R66: in `CLI` mode the cycle begins with the hold. -/
theorem test_cli_hold : after (run 2 { State.reset with mode := .cli }) (·.ctl) = some .cliWait := by decide
/-- DBG-1: `q` at the first prompt. -/
theorem test_debug_quit :
    after (run 2 { memState 0 901 0 with mode := .debug, input := [5, 6], dbgCmd := [.quit] })
      (fun t => (t.outcome, t.pc, t.ir, t.input)) = some (.terminated, 0, 901, [5, 6]) := by decide
/-- DBG-3: `s`, and then held at the next prompt. -/
theorem test_debug_step :
    after (run 4 { memState2 0 901 0 1 716 with mode := .debug, input := [5, 6], dbgCmd := [.step] })
      (fun t => (t.ctl, t.pc, t.fpc, t.ir, t.acc)) = some (.dbgWait, 1, 1, 716, 5) := by decide
/-- `c` leaves `DEBUG` mode. -/
theorem test_debug_continue : after (step (promptState 0 902 .cont)) (fun t => (t.mode, t.output)) =
    some (.mem, [0]) := by decide

/-! ## The host's interfaces -/

/-- LOAD-1. -/
theorem test_load :
    (load [901, 902, 0, 7, 8] [] 0).toOption.map (fun s => (List.range 7).map s.mem.read) =
      some [901, 902, 0, 7, 8, 0, 0] := by decide
/-- LOAD-3, LOAD-5, LOAD-6. -/
theorem test_load_refused :
    load (List.replicate 101 0) [] 0 = .error .programTooLong ∧
    load [2147483648] [] 0 = .error .programWordOutOfRange ∧
    load [] [-2147483649] 0 = .error .inputOutOfRange ∧
    load [] [] 3 = .error .startModeInvalid := by refine ⟨?_, ?_, ?_, ?_⟩ <;> rfl
/-- R21, R28, R29, R31: the codes. -/
theorem test_codes :
    Mode.code .debug = 2 ∧ Mode.ofCode 3 = none ∧ Ctl.done.code = 4 ∧ RunOutcome.arithOverflow.code = 5 ∧
    DbgCmd.help.code = 3 ∧ DbgCmd.ofCode 7 = .other := by decide
/-- R83: at a prompt the view is presented with the cell at `pc` marked. -/
theorem test_prompt_view :
    (promptState 3 902 .help).promptView.map (fun v => (v.isCurrent 3, v.isCurrent 2, v.cells.length)) =
      some (true, false, 100) := by decide
/-- The word placed from outside is what the next step runs, in each mode. -/
theorem test_withFetchWord :
    after (step (State.reset.withFetchWord 16 902)) (fun t => (t.output, t.ir)) = some ([0], 902) ∧
    after (step ((cliState 5 0).withFetchWord 16 902)) (·.output) = some [0] ∧
    after (step ((promptState 5 0 .quit).withFetchWord 16 902)) (·.output) = some [0] := by decide

/-! ## Witnesses: concrete states and operands that meet the hypotheses of each statement, clause by clause -/

theorem at_fetch (f : Addr) (w acc : Word) (hf : isCell f = true) : AtFetch (memState f w acc) f w :=
  ⟨rfl, rfl, rfl, hf, by simp [memState, Mem.read_write]⟩

theorem at_cliWord (p : Addr) (w : Word) : AtCliWord (cliState p w) w [] := ⟨rfl, rfl, rfl⟩

theorem at_prompt (f : Addr) (w : Word) (c : DbgCmd) : AtPrompt (promptState f w c) c [] :=
  ⟨rfl, rfl, rfl, rfl⟩

theorem witness_DecodeEncodeRoundTrip :
    isCell 99 = true ∧ isCell 0 = true ∧ (Instr.brp 99).wf = true ∧
    decode 99 = .ok .halt ∧ decode 0 = .ok .halt ∧ decode 899 = .ok (.brp 99) := by decide

theorem witness_StepRunsTheDecodedInstruction :
    (AtFetch (memState 98 902 0) 98 902 ∧ (98 : Addr).toNat ≤ 98 ∧ AtFetch (memState 99 7 0) 99 7 ∧
      AtCliWord (cliState 127 902) 902 [] ∧ AtCliWord (cliState 127 7) 7 [] ∧
      AtPrompt (promptState 98 902 .step) .step [] ∧ AtPrompt (promptState 99 7 .cont) .cont []) ∧
    decode 902 = .ok .outp ∧ decode 7 = .ok .halt :=
  ⟨⟨at_fetch 98 902 0 rfl, by decide, at_fetch 99 7 0 rfl, at_cliWord _ _, at_cliWord _ _,
    at_prompt _ _ _, at_prompt _ _ _⟩, by decide⟩

/-- Both clauses of ADD: the sum at the greatest word, and one above it. -/
theorem witness_AddWritesTheExactSum :
    isCell 99 = true ∧
    InRange ((2147483646 : Word).toInt + ((memState 99 1 0).mem.read 99).toInt) ∧
    ¬ InRange ((2147483647 : Word).toInt + ((memState 99 1 0).mem.read 99).toInt) := by
  unfold InRange; decide

/-- Both clauses of SUB: the difference at the least word, and one below it. -/
theorem witness_SubWritesTheExactDifference :
    isCell 0 = true ∧
    InRange ((-2147483647 : Word).toInt - ((memState 0 1 0).mem.read 0).toInt) ∧
    ¬ InRange ((-2147483648 : Word).toInt - ((memState 0 1 0).mem.read 0).toInt) := by
  unfold InRange; decide

theorem witness_StoWritesItsCellOnly : isCell 99 = true ∧ isCell 0 = true := by decide

theorem witness_LdaLoadsTheWholeWord : isCell 99 = true ∧ isCell 0 = true := by decide

theorem witness_BraFetchesNextAtItsTarget :
    isCell 98 = true ∧ AtFetch (memState 98 (BitVec.ofNat 32 (600 + (98 : Addr).toNat)) 0) 98 698 ∧
    (98 : Addr).toNat ≤ 98 ∧ run 0 (memState 98 698 0) = .next (memState 98 698 0) :=
  ⟨rfl, at_fetch 98 698 0 rfl, by decide, rfl⟩

theorem witness_BrzBranchesWhenNotPositive :
    isCell 99 = true ∧ AtFetch (memState 98 (BitVec.ofNat 32 (700 + (99 : Addr).toNat)) 0) 98 799 ∧
    (98 : Addr).toNat ≤ 98 ∧ (memState 98 799 0).acc.toInt ≤ 0 ∧ 0 < (memState 98 799 1).acc.toInt :=
  ⟨rfl, at_fetch 98 799 0 rfl, by decide, by decide, by decide⟩

theorem witness_BrpBranchesWhenNotZero :
    isCell 99 = true ∧ AtFetch (memState 98 (BitVec.ofNat 32 (800 + (99 : Addr).toNat)) 0) 98 899 ∧
    (98 : Addr).toNat ≤ 98 ∧ (memState 98 899 0).acc.toInt = 0 ∧ (memState 98 899 (-1)).acc.toInt ≠ 0 :=
  ⟨rfl, at_fetch 98 899 0 rfl, by decide, by decide, by decide⟩

theorem witness_InpTakesTheFrontOfInput :
    ({ memState 98 901 0 with input := [5] } : State).input = 5 :: [] ∧
    (memState 98 901 0).input = [] ∧ AtFetch (memState 98 901 0) 98 901 ∧ (98 : Addr).toNat ≤ 98 :=
  ⟨rfl, rfl, at_fetch 98 901 0 rfl, by decide⟩

theorem witness_OutpEmitsTheAccumulator :
    (902 : Word).toInt = 902 ∧ after (run 1 (memState 0 902 7)) (·.output) = some [7] := by decide

theorem witness_HaltEndsTheRunBeforeTheAdvance :
    (0 ≤ (99 : Word).toInt ∧ (99 : Word).toInt ≤ 99 ∧ 0 ≤ (0 : Word).toInt) ∧
    AtFetch (memState 99 99 0) 99 99 ∧ AtCliWord (cliState 127 99) 99 [] ∧
    AtPrompt (promptState 99 99 .step) .step [] ∧ AtPrompt (promptState 99 99 .cont) .cont [] ∧
    AtPrompt (promptState 99 99 .quit) .quit [] ∧ (promptState 99 99 .quit).ir = 99 :=
  ⟨by decide, at_fetch 99 99 0 rfl, at_cliWord _ _, at_prompt _ _ _, at_prompt _ _ _, at_prompt _ _ _, rfl⟩

theorem reaches_fetch (f : Addr) (w acc : Word) (hf : isCell f = true) :
    ReachesExec (memState f w acc) { memState f w acc with ir := w, fpc := f, ctl := .exec } :=
  .inl ⟨f, w, at_fetch f w acc hf, rfl⟩

theorem reaches_cli (p : Addr) (w : Word) :
    ReachesExec (cliState p w) { cliState p w with instrIn := [], ir := w, fpc := p, ctl := .exec } :=
  .inr (.inl ⟨w, [], at_cliWord p w, rfl⟩)

theorem reaches_prompt (f : Addr) (w : Word) :
    ReachesExec (promptState f w .cont)
      { promptState f w .cont with dbgCmd := [], mode := .mem, ctl := .exec } :=
  .inr (.inr ⟨.cont, [], at_prompt f w .cont, .inr rfl, rfl⟩)

theorem witness_CellNinetyNineOverflows :
    (AtFetch (memState 99 902 0) 99 902 ∧ decode 902 ≠ .ok .halt) ∧
    ReachesExec (promptState 99 902 .cont)
      { promptState 99 902 .cont with dbgCmd := [], mode := .mem, ctl := .exec } ∧
    ((cliState 99 902).mode = .cli ∧ (cliState 99 902).ctl ≠ .dbgWait ∧
      (cliState 99 902).outcome ≠ .overflow ∧ (nextOf (step (cliState 99 902))).isSome = true) :=
  ⟨⟨at_fetch 99 902 0 rfl, by decide⟩, reaches_prompt 99 902, by decide⟩

/-- At the ends of the illegal ranges, at the last address from which a word is dispatched, and in each mode. -/
theorem witness_IllegalWordEndsTheRun :
    (IsIllegal (-1) ∧ IsIllegal 1000 ∧ IsIllegal 400 ∧ IsIllegal 499 ∧ IsIllegal 900 ∧ IsIllegal 903 ∧
      IsIllegal 999 ∧ (98 : Addr).toNat ≤ 98) ∧
    AtFetch (memState 98 400 0) 98 400 ∧
    ReachesExec (cliState 127 999) { cliState 127 999 with instrIn := [], ir := 999, fpc := 127, ctl := .exec } ∧
    ReachesExec (promptState 98 903 .cont)
      { promptState 98 903 .cont with dbgCmd := [], mode := .mem, ctl := .exec } :=
  ⟨by unfold IsIllegal; decide, at_fetch 98 400 0 rfl, reaches_cli _ _, reaches_prompt _ _⟩

/-- ADD of its own word above the greatest word, SUB of its own word below the least. -/
theorem witness_ArithOverflowEndsTheRun :
    (ReachesExec (memState 98 198 2147483647)
        { memState 98 198 2147483647 with ir := 198, fpc := 98, ctl := .exec } ∧
      isCell 98 = true ∧ (98 : Addr).toNat ≤ 98 ∧ (198 : Word).toInt = 100 + ((98 : Addr).toNat : Int) ∧
      ¬ InRange ((2147483647 : Word).toInt + ((memState 98 198 2147483647).mem.read 98).toInt)) ∧
    ((298 : Word).toInt = 200 + ((98 : Addr).toNat : Int) ∧
      ¬ InRange ((-2147483648 : Word).toInt - ((memState 98 298 (-2147483648)).mem.read 98).toInt)) ∧
    (after (step (memState 98 198 2147483647)) (·.outcome) = some .arithOverflow ∧
      (memState 98 198 2147483647).outcome ≠ .arithOverflow) :=
  ⟨⟨reaches_fetch 98 198 2147483647 rfl, rfl, by decide, by decide, by unfold InRange; decide⟩,
    ⟨by decide, by unfold InRange; decide⟩, by decide⟩

theorem witness_FirstOutcomeInCycleOrderWins :
    AtPrompt (promptState 99 7 .quit) .quit [] ∧
    (ReachesExec (memState 99 400 0) { memState 99 400 0 with ir := 400, fpc := 99, ctl := .exec } ∧
      (memState 99 400 0).outcome = .running ∧ (memState 99 400 0).pc.toNat ≤ 99) ∧
    (ReachesExec (cliState 99 400) { cliState 99 400 with instrIn := [], ir := 400, fpc := 99, ctl := .exec } ∧
      (cliState 99 400).outcome = .running ∧ (cliState 99 400).mode = .cli ∧ IsIllegal 400) ∧
    ReachesExec (memState 98 198 2147483647)
      { memState 98 198 2147483647 with ir := 198, fpc := 98, ctl := .exec } :=
  ⟨at_prompt _ _ _, ⟨reaches_fetch 99 400 0 rfl, rfl, by decide⟩,
    ⟨reaches_cli _ _, rfl, rfl, by unfold IsIllegal; decide⟩, reaches_fetch 98 198 2147483647 rfl⟩

/-- A sound state with something in it: held at a prompt in `DEBUG` mode. -/
theorem prompt_sound (f : Addr) (w : Word) (c : DbgCmd) (hf : isCell f = true) : Sound (promptState f w c) := by
  have hlt := (isCell_iff f).1 hf
  have hm := Mem.wf_write [] f.toNat w rfl hlt
  constructor <;> simp [promptState, State.reset, hm, Mem.read_write]
  omega

/-- A sound state about to fetch. -/
theorem fetch_sound (f : Addr) (w acc : Word) (hf : isCell f = true) : Sound (memState f w acc) := by
  have hlt := (isCell_iff f).1 hf
  have hm := Mem.wf_write [] f.toNat w rfl hlt
  constructor <;> simp [memState, State.reset, hm]
  omega

/-- A branch taken and a plain advance, each completing from a sound state. -/
theorem witness_CounterAdvancesOrTakesTheBranch :
    Sound (memState 98 699 0) ∧ after (step (memState 98 699 0)) (fun t => (t.ctl, t.pc)) = some (.fetch, 99) ∧
    Sound (memState 98 902 0) ∧ after (step (memState 98 902 0)) (fun t => (t.ctl, t.pc)) = some (.fetch, 99) :=
  ⟨fetch_sound _ _ _ rfl, by decide, fetch_sound _ _ _ rfl, by decide⟩

/-- About to decode `w`, latched from cell `f`, in mode `m`, with `acc` in the Accumulator. -/
def execState (m : Mode) (f : Addr) (w acc : Word) : State :=
  { memState f w acc with mode := m, ir := w, fpc := f, ctl := .exec }

/-- The `EXEC` rows: `HALT` at cell 99; the overflow at cell 99 and the rows below it at cell 98, and at 99 in `CLI` mode. -/
theorem witness_ControlStateFollowsItsTable_exec :
    ((execState .mem 99 7 0).ctl = .exec ∧ decode (execState .mem 99 7 0).ir = .ok .halt) ∧
    ((execState .debug 99 400 0).mode ≠ .cli ∧ 99 < ((execState .debug 99 400 0).pc + 1).toNat ∧
      decode (execState .debug 99 400 0).ir ≠ .ok .halt) ∧
    (((execState .mem 98 400 0).pc + 1).toNat ≤ 99 ∧ (execState .cli 99 400 0).mode = .cli ∧ IsIllegal 400) ∧
    (decode (execState .mem 98 198 2147483647).ir = .ok (.add 98) ∧
      ¬ InRange ((2147483647 : Word).toInt + ((execState .mem 98 198 2147483647).mem.read 98).toInt)) ∧
    (decode (execState .mem 98 298 0).ir = .ok (.sub 98) ∧
      InRange ((0 : Word).toInt - ((execState .mem 98 298 0).mem.read 98).toInt)) := by
  unfold IsIllegal InRange; decide

theorem witness_ControlStateFollowsItsTable :
    (({ memState 99 902 0 with mode := .debug } : State).ctl = .fetch ∧ isCell (99 : Addr) = true) ∧
    after (step (memState 98 902 0)) (·.ctl) = some .fetch ∧
    after (step { memState 98 902 0 with mode := .debug }) (·.ctl) = some .dbgWait ∧
    after (step { State.reset with mode := .cli }) (·.ctl) = some .cliWait ∧
    after (step (cliState 99 902)) (·.ctl) = some .fetch ∧
    after (step { cliState 99 902 with instrIn := [] }) (·.ctl) = some .cliWait ∧
    after (step (promptState 99 902 .step)) (·.ctl) = some .done ∧
    after (step (promptState 99 902 .other)) (·.ctl) = some .dbgWait ∧
    after (step { promptState 99 902 .step with dbgCmd := [] }) (·.ctl) = some .dbgWait ∧
    after (step { memState 98 902 0 with ctl := .exec }) (·.ctl) = some .done := by decide

theorem witness_EndedRunStaysAsItIs : ((memState 0 0 0).raise .halted).ctl = .done := rfl

theorem witness_HoldsChangeNothing :
    (({ cliState 0 0 with instrIn := [] } : State).ctl = .cliWait ∧
      ({ cliState 0 0 with instrIn := [] } : State).instrIn = []) ∧
    (({ promptState 0 0 .step with dbgCmd := [] } : State).ctl = .dbgWait ∧
      ({ promptState 0 0 .step with dbgCmd := [] } : State).dbgCmd = []) := by decide

theorem witness_DebuggerCommandsAtThePrompt :
    AtPrompt (promptState 99 902 .help) .help [] ∧ AtPrompt (promptState 99 902 .other) .other [] ∧
    AtPrompt (promptState 99 902 .quit) .quit [] ∧ AtPrompt (promptState 99 902 .step) .step [] ∧
    AtPrompt (promptState 99 902 .cont) .cont [] :=
  ⟨at_prompt _ _ _, at_prompt _ _ _, at_prompt _ _ _, at_prompt _ _ _, at_prompt _ _ _⟩

/-- About to fetch in `DEBUG` mode from cell 98, with `cs` offered. -/
def debugState (cs : List DbgCmd) : State := { memState 98 902 7 with mode := .debug, dbgCmd := cs }

theorem witness_QuitTerminatesUnexecuted :
    (debugState [.help, .other, .quit]).ctl = .fetch ∧ (debugState [.help, .other, .quit]).mode = .debug ∧
    (debugState [.help, .other, .quit]).pc = 98 ∧ isCell 98 = true ∧
    (∀ c ∈ [DbgCmd.help, .other], c = .help ∨ c = .other) ∧
    (debugState [.help, .other, .quit]).dbgCmd = [.help, .other] ++ .quit :: [] := by decide

theorem witness_DebuggedCycleEqualsMemCycle :
    (debugState []).ctl = .fetch ∧ (debugState []).mode = .debug ∧
    (∀ c ∈ [DbgCmd.help, .other], c = .help ∨ c = .other) ∧
    (nextOf (step { debugState [] with mode := .mem, dbgCmd := [.quit] })).isSome = true := by decide

theorem witness_SingleSteppedRunRefinesMemRun :
    (debugState [.step, .step]).ctl = .fetch ∧ (debugState [.step, .step]).mode = .debug ∧
    (debugState [.step, .step]).dbgCmd = List.replicate 2 .step ∧
    (nextOf (run 2 { debugState [.step, .step] with mode := .mem, dbgCmd := [] })).isSome = true := by decide

theorem witness_ModeChangesOnlyOnContinue :
    Sound (promptState 98 902 .cont) ∧ after (step (promptState 98 902 .cont)) (·.mode) = some .mem ∧
    Sound (memState 98 902 0) ∧ after (step (memState 98 902 0)) (·.mode) = some .mem :=
  ⟨prompt_sound _ _ _ rfl, by decide, fetch_sound _ _ _ rfl, by decide⟩

theorem witness_EveryStepKeepsSoundness :
    Sound (promptState 99 902 .cont) ∧
    after (step (promptState 99 902 .cont)) (·.outcome) = some .overflow :=
  ⟨prompt_sound _ _ _ rfl, by decide⟩

theorem witness_SoundStateAlwaysSteps : Sound (memState 99 902 0) := fetch_sound _ _ _ rfl

/-- A load that is accepted. -/
theorem load_small : ∃ s, load [901, 902, 0] [5] 2 = .ok s := ⟨_, rfl⟩

theorem witness_LoadedStateIsSound : ∃ s, load [901, 902, 0] [5] 2 = .ok s := load_small

theorem witness_LoadedRunsNeverStop : ∃ s, load [901, 902, 0] [5] 2 = .ok s := load_small

/-- A program of 100 words at both ends of the word range, and each start mode. -/
theorem witness_LoadGivesTheResetState :
    (List.replicate 100 (2147483647 : Int)).length ≤ 100 ∧
    (∀ v ∈ List.replicate 100 (2147483647 : Int), InRange v) ∧
    (∀ v ∈ [(-2147483648 : Int)], InRange v) ∧ (2 : BitVec 2) ≠ 3 ∧ (0 : BitVec 2) ≠ 3 := by
  refine ⟨by simp, fun v hv => ?_, ?_, by decide, by decide⟩
  · rw [List.eq_of_mem_replicate hv]; unfold InRange; decide
  · unfold InRange; decide

/-- Each ground for a refusal, at its boundary. -/
theorem witness_LoadRefusedExactlyWhen :
    100 < (List.replicate 101 (0 : Int)).length ∧ ¬ InRange 2147483648 ∧ ¬ InRange (-2147483649) := by
  refine ⟨by simp, ?_, ?_⟩ <;> unfold InRange <;> decide

/-- Each kind of change happens. -/
theorem witness_OnlyTheNamedInstructionsWrite :
    after (step (memState 98 598 0)) (·.acc) = some 598 ∧
    after (step (memState 98 399 5)) (fun t => t.mem.read 99) = some 5 ∧
    after (step { memState 98 901 0 with input := [5] }) (·.input) = some [] ∧
    after (step (memState 98 902 5)) (·.output) = some [5] := by decide

theorem witness_HandlersLeaveControlStateAlone :
    (nextOf (exec .halt (memState 0 0 0))).isSome = true ∧
    after (exec (.add 0) (memState 0 1 2147483647)) (·.outcome) = some .arithOverflow ∧
    after (exec (.add 0) (memState 0 1 2147483646)) (·.outcome) = some .running := by decide

theorem witness_HandlersCompleteOnWellFormed :
    (Instr.add 99).wf = true ∧ (Instr.add 100).wf = false := by decide

/-- A store to the next cell, and one to another cell. -/
theorem witness_StoredWordIsFetchedNext :
    isCell 99 = true ∧ (98 : Addr).toNat ≤ 98 ∧
    AtFetch (memState 98 (BitVec.ofNat 32 (300 + (99 : Addr).toNat)) 5) 98 399 ∧
    AtFetch (memState 98 (BitVec.ofNat 32 (300 + (0 : Addr).toNat)) 5) 98 300 :=
  ⟨rfl, by decide, at_fetch 98 399 5 rfl, at_fetch 98 300 5 rfl⟩

theorem witness_CounterIsUnusedInCliMode :
    (cliState 127 902).mode = .cli ∧ (cliState 127 902).ctl ≠ .dbgWait ∧
    (nextOf (run 3 (cliState 127 902))).isSome = true := by decide

theorem witness_MemRunIgnoresTheHost :
    (memState 98 902 0).mode = .mem ∧ (memState 98 902 0).ctl ≠ .cliWait ∧
    (memState 98 902 0).ctl ≠ .dbgWait ∧ (nextOf (run 2 (memState 98 902 0))).isSome = true := by decide

theorem witness_OutputGrowsAndInputShrinks :
    after (run 2 { memState2 0 901 0 1 902 with input := [5] }) (fun t => (t.input, t.output)) =
      some ([], [5]) := by decide

end Sys2Proof.Tests
end

namespace Sys2Proof.Machine

/-! ## The invariant `Sound`: what it says of a run that has not ended -/

theorem Sound.running {s : State} (h : Sound s) (hc : s.ctl ≠ .done) : s.outcome = .running :=
  not_not.1 (mt h.ended.2 hc)

theorem Sound.pc_le {s : State} (h : Sound s) (hc : s.ctl ≠ .done) (hm : s.mode ≠ .cli) :
    s.pc.toNat ≤ 99 := by
  obtain hp | ⟨-, ho⟩ := h.counter hm
  · exact hp
  · simp [h.running hc] at ho

/-- While the run has not ended, the clauses about the outcomes ask for nothing. -/
theorem sound_of_running {s : State} (hw : s.mem.wf = true) (hc : s.ctl ≠ .done)
    (ho : s.outcome = .running) (hp : s.mode ≠ .cli → s.pc.toNat ≤ 99)
    (hcli : s.ctl = .cliWait → s.mode = .cli)
    (hdbg : s.ctl = .dbgWait → s.mode = .debug ∧ s.pc = s.fpc ∧ s.ir = s.mem.read s.fpc.toNat)
    (hexec : s.ctl = .exec → s.pc = s.fpc ∧ (s.mode ≠ .cli → s.ir = s.mem.read s.fpc.toNat)) :
    Sound s := by
  refine ⟨hw, ?_, ?_, fun hm => .inl (hp hm), hcli, hdbg, hexec, ?_, ?_, ?_, ?_, ?_⟩ <;> simp [ho, hc]

/-! ## The rows of R66 that do not execute keep `Sound` -/

theorem Sound.setInstrIn {s : State} (h : Sound s) (l : List Word) : Sound (s.setInstrIn l) :=
  ⟨h.memory, h.ended, h.reserved, h.counter, h.cliHold, h.dbgHold, h.latched, h.halted, h.overflow,
    h.terminated, h.illegal, h.arith⟩

theorem Sound.setDbgCmd {s : State} (h : Sound s) (l : List DbgCmd) : Sound (s.setDbgCmd l) :=
  ⟨h.memory, h.ended, h.reserved, h.counter, h.cliHold, h.dbgHold, h.latched, h.halted, h.overflow,
    h.terminated, h.illegal, h.arith⟩

theorem Sound.setCtl_cliWait {s : State} (h : Sound s) (hc : s.ctl ≠ .done) (hm : s.mode = .cli) :
    Sound (s.setCtl .cliWait) :=
  sound_of_running h.memory (by simp) (h.running hc) (h.pc_le hc) (fun _ => hm) (by simp) (by simp)

/-- The word fetched from memory or taken from the host is latched for execution (R58, R59). -/
theorem Sound.latch_exec {s : State} (h : Sound s) (hc : s.ctl ≠ .done) {w : Word}
    (hw : s.mode ≠ .cli → w = s.mem.read s.pc.toNat) : Sound ((s.latch w).setCtl .exec) :=
  sound_of_running h.memory (by simp) (h.running hc) (h.pc_le hc) (by simp) (by simp)
    (fun _ => ⟨rfl, hw⟩)

/-- The word fetched in `DEBUG` mode is latched at the prompt (R60, R82). -/
theorem Sound.latch_dbgWait {s : State} (h : Sound s) (hc : s.ctl ≠ .done) (hm : s.mode = .debug) :
    Sound ((s.latch (s.mem.read s.pc.toNat)).setCtl .dbgWait) :=
  sound_of_running h.memory (by simp) (h.running hc) (h.pc_le hc) (by simp)
    (fun _ => ⟨hm, rfl, rfl⟩) (by simp)

/-- A prompt left for execution, in `DEBUG` mode after `STEP` and in `MEM` mode after `CONT` (R84, R85). -/
theorem Sound.resume {s : State} (h : Sound s) (hc : s.ctl = .dbgWait) (m : Mode) :
    Sound ((s.setMode m).setCtl .exec) := by
  obtain ⟨hm, hpc, hir⟩ := h.dbgHold hc
  have hc' : s.ctl ≠ .done := by simp [hc]
  exact sound_of_running h.memory (by simp) (h.running hc') (fun _ => h.pc_le hc' (by simp [hm]))
    (by simp) (by simp) (fun _ => ⟨hpc, fun _ => hir⟩)

/-- `QUIT` at a prompt (R86, R93). -/
theorem Sound.raise_terminated {s : State} (h : Sound s) (hc : s.ctl = .dbgWait) :
    Sound (s.raise .terminated) := by
  have hp := h.pc_le (by simp [hc])
  constructor
  case memory => exact h.memory
  case counter => exact fun hm => .inl (hp hm)
  case terminated => exact fun _ => h.dbgHold hc
  all_goals simp

/-! ## The four ways a cycle ends keep `Sound`, from the latched word on -/

theorem Sound.raise_halted {s : State} (h : Sound s) (hc : s.ctl = .exec)
    (hd : decode s.ir = .ok .halt) : Sound (s.raise .halted) := by
  have hp := h.pc_le (by simp [hc])
  obtain ⟨hpc, hir⟩ := h.latched hc
  constructor
  case memory => exact h.memory
  case counter => exact fun hm => .inl (hp hm)
  case halted => exact fun _ => ⟨hpc, hd, hir⟩
  all_goals simp

/-- Outside `CLI` mode the advance passes the last cell from cell 99 only (R64). -/
theorem Sound.pc_of_overflowed {s : State} (h : Sound s) (hc : s.ctl = .exec)
    (ho : overflowed s.advance = true) : s.mode ≠ .cli ∧ s.pc = 99 := by
  obtain ⟨hm, hp⟩ := (overflowed_iff _).1 ho
  have hle : s.pc.toNat ≤ 99 := h.pc_le (by simp [hc]) hm
  rw [State.advance_pc] at hp
  exact ⟨hm, by bv_omega⟩

theorem Sound.raise_overflow {s : State} (h : Sound s) (hc : s.ctl = .exec)
    (hd : decode s.ir ≠ .ok .halt) (ho : overflowed s.advance = true) :
    Sound (s.advance.raise .overflow) := by
  obtain ⟨hm, hpc⟩ := h.pc_of_overflowed hc ho
  obtain ⟨hf, hir⟩ := h.latched hc
  have hf : s.fpc = 99 := by rw [← hf, hpc]
  have hir : s.ir = s.mem.read 99 := by simpa [hf] using hir hm
  have hpc : s.advance.pc = 100 := by rw [State.advance_pc, hpc]; rfl
  constructor
  case memory => exact h.memory
  case counter => exact fun _ => .inr ⟨congrArg BitVec.toNat hpc, rfl⟩
  case overflow => exact fun _ => ⟨hm, hpc, hf, hir, hd⟩
  all_goals simp

/-- Where the overflow check passes, the advanced Counter is in range outside `CLI` mode (R64). -/
theorem pc_le_of_not_overflowed {s : State} (ho : overflowed s = false) (hm : s.mode ≠ .cli) :
    s.pc.toNat ≤ 99 := by
  simpa [overflowed, hm] using ho

theorem Sound.raise_illegal {s : State} (h : Sound s) (hc : s.ctl = .exec)
    (hd : ∃ e, decode s.ir = .error e) (ho : overflowed s.advance = false) :
    Sound (s.advance.raise .illegalInstruction) := by
  have hp := pc_le_of_not_overflowed ho
  obtain ⟨hpc, hir⟩ := h.latched hc
  constructor
  case memory => exact h.memory
  case counter => exact fun hm => .inl (hp hm)
  case illegal => exact fun _ => ⟨congrArg (· + 1) hpc, hd, hir⟩
  all_goals simp

theorem Sound.raise_arith {s : State} (h : Sound s) (hc : s.ctl = .exec)
    (hd : ∃ a, decode s.ir = .ok (.add a) ∨ decode s.ir = .ok (.sub a))
    (ho : overflowed s.advance = false) : Sound (s.advance.raise .arithOverflow) := by
  have hp := pc_le_of_not_overflowed ho
  obtain ⟨hpc, hir⟩ := h.latched hc
  constructor
  case memory => exact h.memory
  case counter => exact fun hm => .inl (hp hm)
  case arith => exact fun _ => ⟨congrArg (· + 1) hpc, hd, hir⟩
  all_goals simp

/-- A cycle in which nothing was raised (R65). -/
theorem endCycle_sound_of_running {s : State} (hw : s.mem.wf = true) (hc : s.ctl = .exec)
    (ho : s.outcome = .running) (hp : s.mode ≠ .cli → s.pc.toNat ≤ 99) : Sound s.endCycle := by
  have hf : s.endCycle = s.setCtl .fetch := if_neg (by simp [hc])
  rw [hf]
  exact sound_of_running hw (by simp) ho hp (by simp) (by simp) (by simp)

/-- A handler raises only `ARITH_OVERFLOW`, keeps memory canonical, and moves the Counter to cells only. -/
theorem endCycle_sound_of_dispatch {s u : State} (h : Sound s) (hc : s.ctl = .exec)
    (ho : overflowed s.advance = false) {i : Instr} (hd : decode s.ir = .ok i) (hi : i ≠ .halt)
    (hu : exec i s.advance = .next u) : Sound u.endCycle := by
  have hr : s.outcome = .running := h.running (by simp [hc])
  have hp := pc_le_of_not_overflowed ho
  obtain ⟨rfl, -⟩ | ⟨a, v, -, -, rfl⟩ | ⟨a, hk, -, rfl⟩ | ⟨a, -, ha, rfl⟩ | ⟨a, -, -, rfl⟩ |
    ⟨a, -, ha, rfl | rfl⟩ | ⟨-, -, rfl⟩ | ⟨v, rest, -, -, rfl⟩ | ⟨-, rfl⟩ := exec_next hu
  · exact absurd rfl hi
  · exact endCycle_sound_of_running h.memory hc hr hp
  · refine h.raise_arith hc ⟨a, ?_⟩ ho
    obtain rfl | rfl := hk
    · exact .inl hd
    · exact .inr hd
  · have ha := (isCell_iff a).1 ha
    exact endCycle_sound_of_running (Mem.wf_write _ _ _ h.memory ha) hc hr hp
  · exact endCycle_sound_of_running h.memory hc hr hp
  · have ha := (isCell_iff a).1 ha
    exact endCycle_sound_of_running h.memory hc hr fun _ => Nat.le_of_lt_succ ha
  · exact endCycle_sound_of_running h.memory hc hr hp
  · exact endCycle_sound_of_running h.memory hc hr hp
  · exact endCycle_sound_of_running h.memory hc hr hp
  · exact endCycle_sound_of_running h.memory hc hr hp

/-! ## Every step keeps `Sound` -/

theorem Sound.execute {s t : State} (h : Sound s) (hc : s.ctl = .exec)
    (he : Machine.execute s = .next t) : Sound t := by
  obtain ⟨hd, rfl⟩ | ⟨hd, ho, rfl⟩ | ⟨ho, hd, rfl⟩ | ⟨ho, i, u, hd, hi, hu, rfl⟩ := execute_next he
  · exact h.raise_halted hc hd
  · exact h.raise_overflow hc hd ho
  · exact h.raise_illegal hc hd ho
  · exact endCycle_sound_of_dispatch h hc ho hd hi hu

/-- A row of R66 that executes: the state it reaches with the word latched is sound, and so is the end of its cycle. -/
theorem Sound.step {s t : State} (h : Sound s) (hs : Machine.step s = .next t) : Sound t := by
  obtain ⟨-, rfl⟩ | ⟨hc, hm, rfl⟩ | ⟨hc, hm, -, rfl⟩ | ⟨hc, -, -, he⟩ | ⟨-, -, rfl⟩ |
    ⟨hc, w, rest, -, he⟩ | ⟨-, -, rfl⟩ |
    ⟨hc, c, rest, -, ⟨-, rfl⟩ | ⟨-, rfl⟩ | ⟨-, he⟩ | ⟨-, he⟩⟩ | ⟨hc, he⟩ := step_next hs
  · exact h
  · exact h.setCtl_cliWait (by simp [hc]) hm
  · exact h.latch_dbgWait (by simp [hc]) hm
  · exact (h.latch_exec (by simp [hc]) fun _ => rfl).execute rfl he
  · exact h
  · have hm : s.mode = .cli := h.cliHold hc
    exact ((h.setInstrIn rest).latch_exec (by simp [hc]) fun hn => absurd hm hn).execute rfl he
  · exact h
  · exact h.setDbgCmd rest
  · exact (h.setDbgCmd rest).raise_terminated hc
  · exact ((h.setDbgCmd rest).resume hc s.mode).execute rfl he
  · exact ((h.setDbgCmd rest).resume hc .mem).execute rfl he
  · exact h.execute hc he

/-- Settles O28, by the row of R66 the step takes and, where it executes, by the way its cycle ends. -/
theorem everyStepKeepsSoundness : Obligations.EveryStepKeepsSoundness := by
  unfold Obligations.EveryStepKeepsSoundness
  exact fun _ _ h hs => h.step hs

end Sys2Proof.Machine

namespace Sys2Proof.Machine

/-! ## The frame of a handler -/

/-- What no handler writes (R21, R22, R27, R31). -/
theorem exec_frame {i : Instr} {s t : State} (h : exec i s = .next t) :
    t.mode = s.mode ∧ t.ir = s.ir ∧ t.fpc = s.fpc ∧ t.instrIn = s.instrIn ∧ t.dbgCmd = s.dbgCmd := by
  obtain ⟨-, rfl⟩ | ⟨a, v, -, -, rfl⟩ | ⟨a, -, -, rfl⟩ | ⟨a, -, -, rfl⟩ | ⟨a, -, -, rfl⟩ |
    ⟨a, -, -, rfl | rfl⟩ | ⟨-, -, rfl⟩ | ⟨v, rest, -, -, rfl⟩ | ⟨-, rfl⟩ := exec_next h <;>
  exact ⟨rfl, rfl, rfl, rfl, rfl⟩

/-- A handler writes the outcome and the control state only to end the run, and then nothing else (R29, R96). -/
theorem exec_ends {i : Instr} {s t : State} (h : exec i s = .next t) :
    (t.outcome = s.outcome ∧ t.ctl = s.ctl) ∨ (t = s.raise .halted ∧ i = .halt) ∨
      (t = s.raise .arithOverflow ∧ ∃ a, i = .add a ∨ i = .sub a) := by
  obtain ⟨hi, rfl⟩ | ⟨a, v, -, -, rfl⟩ | ⟨a, hi, -, rfl⟩ | ⟨a, -, -, rfl⟩ | ⟨a, -, -, rfl⟩ |
    ⟨a, -, -, rfl | rfl⟩ | ⟨-, -, rfl⟩ | ⟨v, rest, -, -, rfl⟩ | ⟨-, rfl⟩ := exec_next h
  · exact .inr (.inl ⟨rfl, hi⟩)
  · exact .inl ⟨rfl, rfl⟩
  · exact .inr (.inr ⟨rfl, a, hi⟩)
  all_goals exact .inl ⟨rfl, rfl⟩

/-- Settles O36: the frame of a handler, and how a handler ends the run. -/
theorem handlersLeaveControlStateAlone : Obligations.HandlersLeaveControlStateAlone := by
  unfold Obligations.HandlersLeaveControlStateAlone
  intro i s t h
  obtain ⟨hmode, hir, hfpc, hwords, hcmds⟩ := exec_frame h
  exact ⟨hmode, hir, hfpc, hwords, hcmds, exec_ends h⟩

theorem execute_ir {s t : State} (h : execute s = .next t) : t.ir = s.ir := by
  obtain ⟨-, rfl⟩ | ⟨-, -, rfl⟩ | ⟨-, -, rfl⟩ | ⟨-, i, u, -, -, hu, rfl⟩ := execute_next h
  · rfl
  · rfl
  · rfl
  · obtain ⟨-, hir, -⟩ := exec_frame hu
    rw [State.endCycle_ir, hir, State.advance_ir]

theorem execute_mode {s t : State} (h : execute s = .next t) : t.mode = s.mode := by
  obtain ⟨-, rfl⟩ | ⟨-, -, rfl⟩ | ⟨-, -, rfl⟩ | ⟨-, i, u, -, -, hu, rfl⟩ := execute_next h
  · rfl
  · rfl
  · rfl
  · obtain ⟨hm, -⟩ := exec_frame hu
    rw [State.endCycle_mode, hm, State.advance_mode]

/-! ## Which word writes the Accumulator, memory, Input and Output -/

/-- `Acc`, memory, `In` and `Out` are the same in both states. -/
def SameData (s t : State) : Prop :=
  t.acc = s.acc ∧ t.mem = s.mem ∧ t.input = s.input ∧ t.output = s.output

/-- Between `s` and `t` no more is written than the word `w` writes when it is executed: what
`Obligations.OnlyTheNamedInstructionsWrite` says of a step, for any two states. -/
def WritesOf (w : Word) (s t : State) : Prop :=
  (t.acc ≠ s.acc → decode w = .ok .inp ∨
    ∃ a, decode w = .ok (.add a) ∨ decode w = .ok (.sub a) ∨ decode w = .ok (.lda a)) ∧
  (∀ b : Nat, t.mem.read b ≠ s.mem.read b →
    ∃ a : Addr, decode w = .ok (.sto a) ∧ a.toNat = b ∧ t.mem.read b = s.acc) ∧
  (t.input ≠ s.input → decode w = .ok .inp ∧ s.input = t.acc :: t.input) ∧
  (t.output ≠ s.output → decode w = .ok .outp ∧ t.output = s.output ++ [s.acc])

theorem SameData.writesOf {s t : State} (h : SameData s t) (w : Word) : WritesOf w s t := by
  obtain ⟨hacc, hmem, hin, hout⟩ := h
  exact ⟨absurd hacc, fun b => absurd (by rw [hmem]), absurd hin, absurd hout⟩

theorem WritesOf.of_sameData {w : Word} {s e t : State} (h : WritesOf w e t) (hs : SameData s e) :
    WritesOf w s t := by
  obtain ⟨hacc, hmem, hin, hout⟩ := hs
  simpa only [WritesOf, hacc, hmem, hin, hout] using h

/-- A store writes its own cell and no other (R43, R74). -/
theorem read_write_changed {m : Mem} {a b : Nat} {v : Word} (h : (m.write a v).read b ≠ m.read b) :
    a = b ∧ (m.write a v).read b = v := by
  rw [Mem.read_write] at h ⊢
  split at h
  · next hb => exact ⟨hb.symm, if_pos hb⟩
  · exact absurd rfl h

/-- A handler writes no more than what its word is named for, by the ways of `exec_next`. -/
theorem exec_writesOf {w : Word} {i : Instr} {s t : State} (hd : decode w = .ok i)
    (h : exec i s = .next t) : WritesOf w s t := by
  obtain ⟨-, rfl⟩ | ⟨a, v, hi, -, rfl⟩ | ⟨a, -, -, rfl⟩ | ⟨a, rfl, -, rfl⟩ | ⟨a, rfl, -, rfl⟩ |
    ⟨a, -, -, rfl | rfl⟩ | ⟨-, -, rfl⟩ | ⟨v, rest, rfl, hin, rfl⟩ | ⟨rfl, rfl⟩ := exec_next h
  · exact SameData.writesOf ⟨rfl, rfl, rfl, rfl⟩ _
  · refine ⟨fun _ => .inr ⟨a, ?_⟩, fun _ => absurd rfl, absurd rfl, absurd rfl⟩
    obtain rfl | rfl := hi
    · exact .inl hd
    · exact .inr (.inl hd)
  · exact SameData.writesOf ⟨rfl, rfl, rfl, rfl⟩ _
  · refine ⟨absurd rfl, fun b hb => ?_, absurd rfl, absurd rfl⟩
    obtain ⟨hab, hv⟩ := read_write_changed hb
    exact ⟨a, hd, hab, hv⟩
  · exact ⟨fun _ => .inr ⟨a, .inr (.inr hd)⟩, fun _ => absurd rfl, absurd rfl, absurd rfl⟩
  · exact SameData.writesOf ⟨rfl, rfl, rfl, rfl⟩ _
  · exact SameData.writesOf ⟨rfl, rfl, rfl, rfl⟩ _
  · exact SameData.writesOf ⟨rfl, rfl, rfl, rfl⟩ _
  · exact ⟨fun _ => .inl hd, fun _ => absurd rfl, fun _ => ⟨hd, hin⟩, absurd rfl⟩
  · exact ⟨absurd rfl, fun _ => absurd rfl, absurd rfl, fun _ => ⟨hd, rfl⟩⟩

theorem execute_writesOf {s t : State} (h : execute s = .next t) : WritesOf t.ir s t := by
  rw [execute_ir h]
  obtain ⟨-, rfl⟩ | ⟨-, -, rfl⟩ | ⟨-, -, rfl⟩ | ⟨-, i, u, hd, -, hu, rfl⟩ := execute_next h
  · exact SameData.writesOf ⟨rfl, rfl, rfl, rfl⟩ _
  · exact SameData.writesOf ⟨rfl, rfl, rfl, rfl⟩ _
  · exact SameData.writesOf ⟨rfl, rfl, rfl, rfl⟩ _
  · simpa [WritesOf] using exec_writesOf hd hu

/-- Before a row executes, and where none does, a step writes `ctl`, the latched word, the mode and the host's lists
only. -/
theorem step_writesOf {s t : State} (h : step s = .next t) : WritesOf t.ir s t := by
  obtain ⟨-, rfl⟩ | ⟨-, -, rfl⟩ | ⟨-, -, -, rfl⟩ | ⟨-, -, -, he⟩ | ⟨-, -, rfl⟩ |
    ⟨-, w, rest, -, he⟩ | ⟨-, -, rfl⟩ |
    ⟨-, c, rest, -, ⟨-, rfl⟩ | ⟨-, rfl⟩ | ⟨-, he⟩ | ⟨-, he⟩⟩ | ⟨-, he⟩ := step_next h
  · exact SameData.writesOf ⟨rfl, rfl, rfl, rfl⟩ _
  · exact SameData.writesOf ⟨rfl, rfl, rfl, rfl⟩ _
  · exact SameData.writesOf ⟨rfl, rfl, rfl, rfl⟩ _
  · exact (execute_writesOf he).of_sameData ⟨rfl, rfl, rfl, rfl⟩
  · exact SameData.writesOf ⟨rfl, rfl, rfl, rfl⟩ _
  · exact (execute_writesOf he).of_sameData ⟨rfl, rfl, rfl, rfl⟩
  · exact SameData.writesOf ⟨rfl, rfl, rfl, rfl⟩ _
  · exact SameData.writesOf ⟨rfl, rfl, rfl, rfl⟩ _
  · exact SameData.writesOf ⟨rfl, rfl, rfl, rfl⟩ _
  · exact (execute_writesOf he).of_sameData ⟨rfl, rfl, rfl, rfl⟩
  · exact (execute_writesOf he).of_sameData ⟨rfl, rfl, rfl, rfl⟩
  · exact (execute_writesOf he).of_sameData ⟨rfl, rfl, rfl, rfl⟩

/-- Settles O35: what a step writes is what the word left in `IR` writes. -/
theorem onlyTheNamedInstructionsWrite : Obligations.OnlyTheNamedInstructionsWrite := by
  unfold Obligations.OnlyTheNamedInstructionsWrite
  exact fun _ _ h => step_writesOf h

/-! ## Output and Input over a run -/

theorem step_output {s t : State} (h : step s = .next t) :
    ∃ emitted, t.output = s.output ++ emitted ∧ emitted.length ≤ 1 := by
  obtain ⟨-, -, -, hout⟩ := step_writesOf h
  by_cases hs : t.output = s.output
  · exact ⟨[], by simp [hs], by simp⟩
  · obtain ⟨-, hout⟩ := hout hs
    exact ⟨[s.acc], hout, le_rfl⟩

theorem step_input {s t : State} (h : step s = .next t) :
    ∃ taken, s.input = taken ++ t.input ∧ taken.length ≤ 1 := by
  obtain ⟨-, -, hin, -⟩ := step_writesOf h
  by_cases hs : t.input = s.input
  · exact ⟨[], by simp [hs], by simp⟩
  · obtain ⟨-, hin⟩ := hin hs
    exact ⟨[t.acc], hin, le_rfl⟩

theorem run_output {k : Nat} {s t : State} (h : run k s = .next t) :
    ∃ emitted, t.output = s.output ++ emitted ∧ emitted.length ≤ k := by
  induction k generalizing s with
  | zero => cases h; exact ⟨[], by simp, by simp⟩
  | succ k ih =>
    obtain ⟨u, hu, h⟩ := run_succ_next h
    obtain ⟨first, hfirst, hone⟩ := step_output hu
    obtain ⟨later, hlater, hk⟩ := ih h
    exact ⟨first ++ later, by rw [hlater, hfirst, List.append_assoc],
      by rw [List.length_append]; omega⟩

theorem run_input {k : Nat} {s t : State} (h : run k s = .next t) :
    ∃ taken, s.input = taken ++ t.input ∧ taken.length ≤ k := by
  induction k generalizing s with
  | zero => cases h; exact ⟨[], by simp, by simp⟩
  | succ k ih =>
    obtain ⟨u, hu, h⟩ := run_succ_next h
    obtain ⟨first, hfirst, hone⟩ := step_input hu
    obtain ⟨later, hlater, hk⟩ := ih h
    exact ⟨first ++ later, by rw [hfirst, hlater, List.append_assoc],
      by rw [List.length_append]; omega⟩

/-- Settles O41, by induction over the run for each of the two queues. -/
theorem outputGrowsAndInputShrinks : Obligations.OutputGrowsAndInputShrinks := by
  unfold Obligations.OutputGrowsAndInputShrinks
  exact fun _ _ _ h => ⟨run_output h, run_input h⟩

end Sys2Proof.Machine

namespace Sys2Proof.Machine

/-! ## In `CLI` mode nothing reads the Counter -/

/-- The state with another Counter and another fetch address. -/
def State.withCounter (s : State) (p q : Addr) : State := { s with pc := p, fpc := q }

@[simp] theorem State.withCounter_ctl (s : State) (p q : Addr) : (s.withCounter p q).ctl = s.ctl := rfl
@[simp] theorem State.withCounter_input (s : State) (p q : Addr) : (s.withCounter p q).input = s.input := rfl

theorem State.advance_withCounter (s : State) (p q : Addr) :
    (s.withCounter p q).advance = s.advance.withCounter (p + 1) q := rfl

theorem State.endCycle_withCounter (s : State) (p q : Addr) :
    (s.withCounter p q).endCycle = s.endCycle.withCounter p q := by
  unfold State.endCycle
  split
  · rw [if_pos (by simpa using ‹_›)]
  · rw [if_neg (by simpa using ‹_›)]; rfl

theorem sameButCounter_withCounter (s : State) (p q : Addr) : SameButCounter s (s.withCounter p q) := rfl

theorem accumulate_withCounter {v : Int} {s t : State} (p q : Addr) (h : accumulate v s = .next t) :
    accumulate v (s.withCounter p q) = .next (t.withCounter p q) := by
  obtain ⟨hv, rfl⟩ | ⟨hv, rfl⟩ := accumulate_next h
  · rw [accumulate, if_pos hv]; rfl
  · rw [accumulate, if_neg (by simp [hv])]; rfl

theorem storeCell_withCounter {a : Addr} {v : Word} {s t : State} (p q : Addr)
    (h : storeCell a v s = .next t) :
    storeCell a v (s.withCounter p q) = .next (t.withCounter p q) := by
  obtain ⟨ha, rfl⟩ := storeCell_next h
  rw [storeCell_of_cell _ _ _ ha]; rfl

theorem branchIf_withCounter {c : Bool} {a : Addr} {s t : State} (p q : Addr)
    (h : branchIf c a s = .next t) :
    ∃ p', branchIf c a (s.withCounter p q) = .next (t.withCounter p' q) := by
  obtain ⟨ha, ⟨rfl, rfl⟩ | ⟨rfl, rfl⟩⟩ := branchIf_next h
  · exact ⟨a, branchIf_of_cell _ _ _ ha⟩
  · exact ⟨p, branchIf_of_cell _ _ _ ha⟩

theorem execInp_withCounter {s t : State} (p q : Addr) (h : execInp s = .next t) :
    execInp (s.withCounter p q) = .next (t.withCounter p q) := by
  unfold execInp at h ⊢
  rw [State.withCounter_input]
  split at h <;> cases h <;> rfl

/-- No handler reads the Counter or the fetch address; only a branch writes the Counter. -/
theorem exec_withCounter {i : Instr} {s t : State} (p q : Addr) (h : exec i s = .next t) :
    ∃ p', exec i (s.withCounter p q) = .next (t.withCounter p' q) := by
  cases i with
  | halt => cases h; exact ⟨p, rfl⟩
  | add a =>
    simp only [exec, execAdd] at h ⊢
    obtain ⟨ha, h⟩ := withCell_next h
    exact ⟨p, (withCell_of_cell _ _ _ ha).trans (accumulate_withCounter p q h)⟩
  | sub a =>
    simp only [exec, execSub] at h ⊢
    obtain ⟨ha, h⟩ := withCell_next h
    exact ⟨p, (withCell_of_cell _ _ _ ha).trans (accumulate_withCounter p q h)⟩
  | sto a => exact ⟨p, storeCell_withCounter p q h⟩
  | lda a =>
    simp only [exec, execLda] at h ⊢
    obtain ⟨ha, h⟩ := withCell_next h
    cases h
    exact ⟨p, withCell_of_cell _ _ _ ha⟩
  | bra a => exact branchIf_withCounter p q h
  | brz a => exact branchIf_withCounter p q h
  | brp a => exact branchIf_withCounter p q h
  | inp => exact ⟨p, execInp_withCounter p q h⟩
  | outp => cases h; exact ⟨p, rfl⟩

/-- In `CLI` mode the overflow check passes at every Counter (R64), so a cycle goes the same way. -/
theorem execute_withCounter {s t : State} (p q : Addr) (hm : s.mode = .cli) (h : execute s = .next t) :
    ∃ p', execute (s.withCounter p q) = .next (t.withCounter p' q) := by
  have ho : overflowed (s.withCounter p q).advance = false := overflowed_advance_of_cli _ hm
  obtain ⟨hd, rfl⟩ | ⟨-, hv, -⟩ | ⟨-, ⟨e, hd⟩, rfl⟩ | ⟨-, i, u, hd, hi, hu, rfl⟩ := execute_next h
  · exact ⟨p, execute_halt _ hd⟩
  · simp [overflowed_advance_of_cli s hm] at hv
  · exact ⟨p + 1, execute_illegal _ hd ho⟩
  · obtain ⟨p', hp'⟩ := exec_withCounter (p + 1) q hu
    refine ⟨p', ?_⟩
    rw [execute_dispatch (s.withCounter p q) hd hi ho, State.advance_withCounter, dispatch, hp',
      ← State.endCycle_withCounter]
    rfl

/-! ## The rows of R66 that a run in `CLI` mode takes -/

theorem step_of_done {s : State} (h : s.ctl = .done) : step s = .next s := by
  simp [step, cycleStep, transition, h, andThen]

theorem step_of_cliFetch {s : State} (h : s.ctl = .fetch) (hm : s.mode = .cli) :
    step s = .next (s.setCtl .cliWait) := by
  simp [step, cycleStep, transition, beginCycle, h, hm, andThen]

theorem step_of_cliHold {s : State} (h : s.ctl = .cliWait) (hi : s.instrIn = []) : step s = .next s := by
  simp [step, cycleStep, transition, takeWord, h, hi, andThen]

/-- What a step does in `CLI` mode and not at a prompt: the rows of `step_next` that are left. -/
theorem step_next_of_cli {s t : State} (hm : s.mode = .cli) (hc : s.ctl ≠ .dbgWait) (h : step s = .next t) :
    (s.ctl = .done ∧ t = s) ∨ (s.ctl = .fetch ∧ t = s.setCtl .cliWait) ∨
    (s.ctl = .cliWait ∧ s.instrIn = [] ∧ t = s) ∨
    (∃ w rest, AtCliWord s w rest ∧ execute (((s.setInstrIn rest).latch w).setCtl .exec) = .next t) ∨
    (s.ctl = .exec ∧ execute s = .next t) := by
  have hdebug : s.mode ≠ .debug := by simp [hm]
  have hmem : s.mode ≠ .mem := by simp [hm]
  obtain hd | ⟨hf, -, ht⟩ | ⟨-, hn, -⟩ | ⟨-, hn, -⟩ | hw | ⟨hw, w, rest, hi, he⟩ | ⟨hn, -⟩ | ⟨hn, -⟩ | hx :=
    step_next h
  · exact .inl hd
  · exact .inr (.inl ⟨hf, ht⟩)
  · exact absurd hn hdebug
  · exact absurd hn hmem
  · exact .inr (.inr (.inl hw))
  · exact .inr (.inr (.inr (.inl ⟨w, rest, ⟨hw, hm, hi⟩, he⟩)))
  · exact absurd hn hc
  · exact absurd hn hc
  · exact .inr (.inr (.inr (.inr hx)))

theorem execute_ctl {s t : State} (h : execute s = .next t) : t.ctl = .done ∨ t.ctl = .fetch := by
  obtain ⟨-, rfl⟩ | ⟨-, -, rfl⟩ | ⟨-, -, rfl⟩ | ⟨-, i, u, -, -, -, rfl⟩ := execute_next h
  · exact .inl rfl
  · exact .inl rfl
  · exact .inl rfl
  · rw [State.endCycle_ctl]
    split
    · exact .inl rfl
    · exact .inr rfl

/-- A cycle of a run in `CLI` mode stays in it and ends at no prompt. -/
theorem execute_stays_cli {s t : State} (hm : s.mode = .cli) (h : execute s = .next t) :
    t.mode = .cli ∧ t.ctl ≠ .dbgWait := by
  refine ⟨(execute_mode h).trans hm, ?_⟩
  obtain ht | ht := execute_ctl h <;> simp [ht]

theorem step_stays_cli {s t : State} (hm : s.mode = .cli) (hc : s.ctl ≠ .dbgWait) (h : step s = .next t) :
    t.mode = .cli ∧ t.ctl ≠ .dbgWait := by
  obtain ⟨-, rfl⟩ | ⟨-, rfl⟩ | ⟨-, -, rfl⟩ | ⟨w, rest, -, he⟩ | ⟨-, he⟩ := step_next_of_cli hm hc h
  · exact ⟨hm, hc⟩
  · exact ⟨hm, by simp⟩
  · exact ⟨hm, hc⟩
  · exact execute_stays_cli (by exact hm) he
  · exact execute_stays_cli hm he

/-- One step of the noninterference: the two steps again differ in the Counter and the fetch address at most. -/
theorem step_withCounter {s t : State} (p q : Addr) (hm : s.mode = .cli) (hc : s.ctl ≠ .dbgWait)
    (h : step s = .next t) : ∃ p' q', step (s.withCounter p q) = .next (t.withCounter p' q') := by
  obtain ⟨hd, rfl⟩ | ⟨hf, rfl⟩ | ⟨hw, hi, rfl⟩ | ⟨w, rest, hw, he⟩ | ⟨hx, he⟩ := step_next_of_cli hm hc h
  · exact ⟨p, q, step_of_done hd⟩
  · exact ⟨p, q, step_of_cliFetch hf hm⟩
  · exact ⟨p, q, step_of_cliHold hw hi⟩
  · have hw' : AtCliWord (s.withCounter p q) w rest := hw
    obtain ⟨p', hp'⟩ := execute_withCounter p p (by exact hm) he
    exact ⟨p', p, (step_atCliWord hw').trans hp'⟩
  · obtain ⟨p', hp'⟩ := execute_withCounter p q hm he
    exact ⟨p', q, (step_of_exec (by exact hx)).trans hp'⟩

theorem run_withCounter {k : Nat} {s t : State} (p q : Addr) (hm : s.mode = .cli) (hc : s.ctl ≠ .dbgWait)
    (h : run k s = .next t) : ∃ p' q', run k (s.withCounter p q) = .next (t.withCounter p' q') := by
  induction k generalizing s p q with
  | zero => cases h; exact ⟨p, q, rfl⟩
  | succ k ih =>
    obtain ⟨u, hu, h⟩ := run_succ_next h
    obtain ⟨hmu, hcu⟩ := step_stays_cli hm hc hu
    obtain ⟨p₁, q₁, h₁⟩ := step_withCounter p q hm hc hu
    obtain ⟨p₂, q₂, h₂⟩ := ih p₁ q₁ hmu hcu h
    exact ⟨p₂, q₂, (run_succ_of_step k h₁).trans h₂⟩

/-- Settles O39: the run with another Counter goes the same way, step by step. -/
theorem counterIsUnusedInCliMode : Obligations.CounterIsUnusedInCliMode := by
  unfold Obligations.CounterIsUnusedInCliMode
  intro k s t p q hm hc h
  obtain ⟨p', q', h'⟩ := run_withCounter p q hm hc h
  exact ⟨_, h', sameButCounter_withCounter t p' q'⟩

end Sys2Proof.Machine

namespace Sys2Proof.Machine

/-! ## The words and codes a load takes (R11, R21) -/

theorem representable_iff_inRange (v : Int) : representable v = true ↔ InRange v := representable_iff v

theorem all_representable_iff (l : List Int) : l.all representable = true ↔ ∀ v ∈ l, InRange v := by
  simp only [List.all_eq_true, representable_iff_inRange]

/-- The words of representable integers have those integers as their values. -/
theorem map_toInt_toWords {l : List Int} (h : ∀ v ∈ l, InRange v) : (toWords l).map BitVec.toInt = l := by
  rw [toWords, List.map_map]
  exact (List.map_congr_left fun v hv => toInt_ofInt v ((representable_iff_inRange v).2 (h v hv))).trans
    (List.map_id l)

/-- 3 is the one code that is no mode. -/
theorem Mode.exists_ofCode_iff (c : BitVec 2) : (∃ m, Mode.ofCode c = some m) ↔ c ≠ 3 := by
  rw [← Option.isSome_iff_exists]
  revert c
  decide

theorem Mode.code_of_ofCode {c : BitVec 2} {m : Mode} (h : Mode.ofCode c = some m) : m.code = c := by
  unfold Mode.ofCode at h
  split_ifs at h with h0 h1 h2 <;> cases h
  · exact h0.symm
  · exact h1.symm
  · exact h2.symm

/-! ## The program in memory (R41) -/

/-- Filling from cell `i` on leaves the cells before it as they are. -/
theorem Mem.read_fill_below (ws : List Word) (m : Mem) {i k : Nat} (h : k < i) :
    (Mem.fill i ws m).read k = m.read k := by
  induction ws generalizing i m with
  | nil => rfl
  | cons v ws ih =>
    rw [Mem.fill, ih _ (by omega), Mem.read_write, if_neg (by omega)]

/-- Filling from cell `i` on puts the `j`-th word in the `j`-th cell from there, and leaves the cells after the words. -/
theorem Mem.read_fill (ws : List Word) (m : Mem) (i j : Nat) :
    (Mem.fill i ws m).read (i + j) = ws.getD j (m.read (i + j)) := by
  induction ws generalizing i j m with
  | nil => rfl
  | cons v ws ih =>
    cases j with
    | zero => rw [Nat.add_zero, Mem.fill, Mem.read_fill_below _ _ (by omega), Mem.read_write, if_pos rfl]; rfl
    | succ j =>
      rw [Mem.fill, show i + (j + 1) = i + 1 + j by omega, ih, Mem.read_write, if_neg (by omega)]
      rfl

/-- Filling cells keeps the canonical form. -/
theorem Mem.wf_fill (ws : List Word) (m : Mem) (i : Nat) (hw : m.wf = true) (hi : i + ws.length ≤ 100) :
    (Mem.fill i ws m).wf = true := by
  induction ws generalizing i m with
  | nil => exact hw
  | cons v ws ih =>
    rw [List.length_cons] at hi
    exact ih _ (i + 1) (Mem.wf_write m i v hw (by omega)) (by omega)

/-! ## The load (R42, R110, R111) -/

/-- The state an accepted load gives. -/
def loadedState (prog inputs : List Int) (m : Mode) : State :=
  { State.reset with mem := Mem.fill 0 (toWords prog) [], input := toWords inputs, mode := m }

/-- What a load can do: it accepts exactly the legal programs, Input lists and start mode codes, and gives their state. -/
theorem load_ok_iff (prog inputs : List Int) (c : BitVec 2) (s : State) :
    load prog inputs c = .ok s ↔
      prog.length ≤ 100 ∧ (∀ v ∈ prog, InRange v) ∧ (∀ v ∈ inputs, InRange v) ∧
        ∃ m, Mode.ofCode c = some m ∧ s = loadedState prog inputs m := by
  simp only [← all_representable_iff]
  unfold load
  split_ifs with hlen hp hi
  · have hlong : ¬ prog.length ≤ 100 := Nat.not_le.2 hlen
    simp [hlong]
  · simp [hp]
  · simp [hi]
  · have hshort : prog.length ≤ 100 := Nat.not_lt.1 hlen
    cases hm : Mode.ofCode c with
    | none => simp
    | some m => simp [hshort, hp, hi, loadedState, eq_comm]

/-- Settles O34: a load that is not refused is accepted, so it is refused when a clause of `load_ok_iff` fails. -/
theorem loadRefusedExactlyWhen : Obligations.LoadRefusedExactlyWhen := by
  unfold Obligations.LoadRefusedExactlyWhen
  intro prog inputs c
  have hrefused : (∃ e, load prog inputs c = .error e) ↔ ¬ ∃ s, load prog inputs c = .ok s := by
    cases load prog inputs c <;> simp
  have haccepted : (∃ s, load prog inputs c = .ok s) ↔
      prog.length ≤ 100 ∧ (∀ v ∈ prog, InRange v) ∧ (∀ v ∈ inputs, InRange v) ∧ c ≠ 3 := by
    simp only [load_ok_iff, exists_and_left]
    rw [exists_comm]
    simp only [exists_and_left, exists_eq, and_true, Mode.exists_ofCode_iff]
  rw [hrefused, haccepted]
  simp only [not_and_or, not_forall, not_le, not_not, exists_prop]

theorem loadedState_sound {prog : List Int} (inputs : List Int) (m : Mode) (h : prog.length ≤ 100) :
    Sound (loadedState prog inputs m) := by
  have hlen : 0 + (toWords prog).length ≤ 100 := by simpa [toWords] using h
  have hmem := Mem.wf_fill (toWords prog) [] 0 rfl hlen
  refine sound_of_running hmem ?_ rfl ?_ ?_ ?_ ?_ <;> simp [loadedState, State.reset]

/-- Settles O30: an accepted load fills cells only, and the run it starts is at the reset values. -/
theorem loadedStateIsSound : Obligations.LoadedStateIsSound := by
  unfold Obligations.LoadedStateIsSound
  intro prog inputs c s h
  obtain ⟨hlen, -, -, m, -, rfl⟩ := (load_ok_iff prog inputs c s).1 h
  exact loadedState_sound inputs m hlen

/-- R41: cell `j` of a loaded state holds the `j`-th program word, and 0 after the program. -/
theorem loadedState_read (prog inputs : List Int) (m : Mode) (j : Nat) :
    (loadedState prog inputs m).mem.read j = (toWords prog).getD j 0 := by
  have h := Mem.read_fill (toWords prog) [] 0 j
  rwa [Nat.zero_add] at h

/-- Settles O33: the cells by `loadedState_read`, the registers by the reset values. -/
theorem loadGivesTheResetState : Obligations.LoadGivesTheResetState := by
  unfold Obligations.LoadGivesTheResetState
  intro prog inputs c hlen hprog hinputs hc
  obtain ⟨m, hm⟩ := (Mode.exists_ofCode_iff c).2 hc
  refine ⟨loadedState prog inputs m, (load_ok_iff ..).2 ⟨hlen, hprog, hinputs, m, hm, rfl⟩, ?_, ?_,
    map_toInt_toWords hinputs, Mode.code_of_ofCode hm, rfl, rfl, rfl, rfl, rfl, rfl, rfl⟩
  · intro j hj
    have hv : representable prog[j] = true := (representable_iff_inRange _).2 (hprog _ (List.getElem_mem hj))
    rw [loadedState_read, toWords, List.getD_eq_getElem _ _ (by simpa using hj), List.getElem_map, toInt_ofInt _ hv]
  · intro j hj _
    rw [loadedState_read, List.getD_eq_default _ _ (by simpa [toWords] using hj)]

/-! ## A store and the fetch after it (R45, R117) -/

theorem decode_stoWord (a : Addr) (h : isCell a = true) :
    decode (BitVec.ofNat 32 (300 + a.toNat)) = .ok (.sto a) := by
  rw [isCell_iff] at h
  have hd : (300 + a.toNat) / 100 = 3 := by omega
  have ha : addressField (300 + a.toNat) = a := addressField_of_digits 3 a h
  rw [decode_ofNat _ (by omega)]
  simp [decodeDigits, hd, ha]

/-- Steps 3 to 7 of a cycle on a word of STO (R74). -/
theorem execute_sto {s : State} {a : Addr} (ha : isCell a = true) (hd : decode s.ir = .ok (.sto a))
    (ho : overflowed s.advance = false) (hc : s.ctl = .exec) :
    execute s = .next ((s.advance.setMem (s.mem.write a.toNat s.acc)).setCtl .fetch) := by
  have hexec : exec (.sto a) s.advance = .next (s.advance.setMem (s.mem.write a.toNat s.acc)) :=
    storeCell_of_cell a s.acc s.advance ha
  rw [execute_dispatch s hd (by simp) ho, dispatch, hexec]
  simp [andThen, State.endCycle, hc]

/-- Settles O38: the fetch after the cycle of STO reads the memory that cycle wrote. -/
theorem storedWordIsFetchedNext : Obligations.StoredWordIsFetchedNext := by
  unfold Obligations.StoredWordIsFetchedNext
  intro s f a ha hf h
  have hcell : isCell (f + 1) = true := by rw [isCell_iff]; bv_omega
  have hread : (s.mem.write a.toNat s.acc).read (f + 1).toNat =
      if a = f + 1 then s.acc else s.mem.read (f + 1).toNat := by
    rw [Mem.read_write]
    simp only [← BitVec.toNat_inj, eq_comm]
  have ⟨_, hmode, hpc, _, _⟩ := h
  refine ⟨_, (step_atFetch h).trans (execute_sto ha (decode_stoWord a ha) ?_ rfl), rfl, hmode, ?_, hcell, hread⟩
  · exact overflowed_advance_of_le _ (by simpa [hpc] using hf)
  · simp [hpc]

end Sys2Proof.Machine

namespace Sys2Proof

/-! ## The encoder against the decoder (R49, R55) -/

/-- The value of an opcode's word (R55). -/
theorem toInt_operandWord (b : Nat) {a : Addr} (ha : isCell a = true) (hb : b ≤ 800 := by decide) :
    (BitVec.ofNat 32 (b + a.toNat)).toInt = b + a.toNat := by
  rw [isCell_iff] at ha
  rw [toInt_ofNat_small _ (by omega), Nat.cast_add]

/-- An opcode's word decodes to the kind of its hundreds digit, with the operand it was made from. -/
theorem decode_operandWord (d : Nat) {k : Addr → Instr} {a : Addr} (ha : isCell a = true)
    (hk : ∀ n, n / 100 = d → decodeDigits n = .ok (k (addressField n))) (hd : d ≤ 9 := by decide) :
    decode (BitVec.ofNat 32 (100 * d + a.toNat)) = .ok (k a) := by
  rw [isCell_iff] at ha
  rw [decode_ofNat _ (by omega), hk _ (by omega), addressField_of_digits d a ha]

theorem decode_encode {i : Instr} (h : i.wf = true) : decode (encode i) = .ok i := by
  cases i with
  | halt | inp | outp => decide
  | add a => exact decode_operandWord 1 h fun n hn => by simp [decodeDigits, hn]
  | sub a => exact decode_operandWord 2 h fun n hn => by simp [decodeDigits, hn]
  | sto a => exact Machine.decode_stoWord a h
  | lda a => exact decode_operandWord 5 h fun n hn => by simp [decodeDigits, hn]
  | bra a => exact decode_operandWord 6 h fun n hn => by simp [decodeDigits, hn]
  | brz a => exact decode_operandWord 7 h fun n hn => by simp [decodeDigits, hn]
  | brp a => exact decode_operandWord 8 h fun n hn => by simp [decodeDigits, hn]

/-- A word that decodes is the canonical word of what it spells, or a halt word (R52, R55). -/
theorem halt_or_eq_encode_of_decode {w : Word} {i : Instr} (h : decode w = .ok i) :
    (i = .halt ∧ 0 ≤ w.toInt ∧ w.toInt ≤ 99) ∨ w = encode i := by
  obtain ⟨-, e, he⟩ | ⟨n, -, hw, hv, hd⟩ := decode_cases w
  · rw [he] at h; cases h
  rw [hd] at h
  obtain ⟨rfl, hn⟩ | ⟨a, -, h⟩ | ⟨rfl, rfl⟩ | ⟨rfl, rfl⟩ := decodeDigits_ok h
  · exact .inl ⟨rfl, by omega, by omega⟩
  · right
    obtain ⟨rfl, rfl⟩ | ⟨rfl, rfl⟩ | ⟨rfl, rfl⟩ | ⟨rfl, rfl⟩ | ⟨rfl, rfl⟩ | ⟨rfl, rfl⟩ | ⟨rfl, rfl⟩ := h <;>
      exact hw
  · exact .inr hw
  · exact .inr hw

/-- R52: the halt words are 0 to 99. -/
theorem decode_halt_iff (w : Word) : decode w = .ok .halt ↔ 0 ≤ w.toInt ∧ w.toInt ≤ 99 := by
  constructor
  · intro h
    obtain ⟨-, hw⟩ | rfl := halt_or_eq_encode_of_decode h
    · exact hw
    · decide
  · rintro ⟨h0, h99⟩
    obtain ⟨hw, -⟩ | ⟨n, -, -, hv, hd⟩ := decode_cases w
    · omega
    · have hdigit : n / 100 = 0 := by omega
      simp [hd, decodeDigits, hdigit]

/-- Every instruction but HALT has one word, its canonical one. -/
theorem decode_ok_iff_of_ne_halt (w : Word) {i : Instr} (hi : i ≠ .halt) :
    decode w = .ok i ↔ i.wf = true ∧ w = encode i := by
  constructor
  · intro h
    obtain ⟨hhalt, -⟩ | hw := halt_or_eq_encode_of_decode h
    · exact absurd hhalt hi
    · exact ⟨decode_wf h, hw⟩
  · rintro ⟨hwf, rfl⟩
    exact decode_encode hwf

/-- What a legal word re-encodes as (R55). -/
theorem encode_of_decode {w : Word} {i : Instr} (h : decode w = .ok i) :
    encode i = if 1 ≤ w.toInt ∧ w.toInt ≤ 99 then 0 else w := by
  by_cases hi : i = .halt
  · subst hi
    obtain ⟨h0, h99⟩ := (decode_halt_iff w).1 h
    split_ifs with hw
    · rfl
    · exact (BitVec.eq_of_toInt_eq (show w.toInt = 0 by omega)).symm
  · have hw : ¬ (1 ≤ w.toInt ∧ w.toInt ≤ 99) := by
      rintro ⟨h1, h99⟩
      rw [(decode_halt_iff w).2 ⟨by omega, h99⟩] at h
      exact hi (Except.ok.inj h).symm
    rw [if_neg hw, ((decode_ok_iff_of_ne_halt w hi).1 h).2]

/-- Settles O1: the values by `toInt_operandWord`, the two directions by `decode_encode` and `encode_of_decode`. -/
theorem decodeEncodeRoundTrip : Obligations.DecodeEncodeRoundTrip := by
  unfold Obligations.DecodeEncodeRoundTrip
  refine ⟨⟨rfl, rfl, rfl, fun a ha => ?_⟩, fun _ => decode_encode, fun w i h => ⟨decode_wf h, encode_of_decode h⟩⟩
  exact ⟨toInt_operandWord 100 ha, toInt_operandWord 200 ha, toInt_operandWord 300 ha, toInt_operandWord 500 ha,
    toInt_operandWord 600 ha, toInt_operandWord 700 ha, toInt_operandWord 800 ha⟩

/-! ## The words of each kind, and the illegal ones (R49 to R54) -/

/-- The words of a kind with an operand, from its row of R55. -/
theorem decode_operand_iff (b : Nat) {k : Addr → Instr} (w : Word) (a : Addr) (hk : k a ≠ .halt)
    (hwf : (k a).wf = isCell a) (henc : encode (k a) = BitVec.ofNat 32 (b + a.toNat)) (hb : b ≤ 800 := by decide) :
    decode w = .ok (k a) ↔ isCell a = true ∧ w.toInt = b + a.toNat := by
  rw [decode_ok_iff_of_ne_halt w hk, hwf, henc, ← BitVec.toInt_inj]
  exact and_congr_right fun ha => by rw [toInt_operandWord b ha hb]

/-- R51: the numbers that are no key of the 9 family. -/
theorem decodeNine_error_iff (n : Nat) : (∃ e, decodeNine n = .error e) ↔ n ≠ 901 ∧ n ≠ 902 := by
  unfold decodeNine
  split_ifs with h901 h902 <;> simp [*]

/-- R53 by digits: opcode 4, and the 9 family but for its keys. -/
theorem decodeDigits_error_iff (n : Nat) :
    (∃ e, decodeDigits n = .error e) ↔ n / 100 = 4 ∨ 9 ≤ n / 100 ∧ n ≠ 901 ∧ n ≠ 902 := by
  rw [← decodeNine_error_iff]
  generalize hd : n / 100 = d
  unfold decodeDigits
  rw [hd]
  by_cases h9 : 9 ≤ d
  · have h4 : d ≠ 4 := by omega
    simp (disch := omega) only [if_neg, if_false, h9, h4, true_and, false_or]
  · interval_cases d <;> simp

theorem decode_error_iff (w : Word) : (∃ e, decode w = .error e) ↔ Machine.IsIllegal w := by
  unfold Machine.IsIllegal
  obtain ⟨hw, he⟩ | ⟨n, hn, -, hv, hd⟩ := decode_cases w
  · exact iff_of_true he (by omega)
  · rw [hd, decodeDigits_error_iff, hv]
    omega

/-- Settles O2: HALT by `decode_halt_iff`, every other kind by its one word for each operand. -/
theorem everyWordIsOneKindOrIllegal : Obligations.EveryWordIsOneKindOrIllegal := by
  unfold Obligations.EveryWordIsOneKindOrIllegal
  intro w
  refine ⟨decode_halt_iff w, fun a => ?add, fun a => ?sub, fun a => ?sto, fun a => ?lda, fun a => ?bra, fun a => ?brz,
    fun a => ?brp, ?inp, ?outp, decode_error_iff w⟩
  case add => exact decode_operand_iff 100 w a nofun rfl rfl
  case sub => exact decode_operand_iff 200 w a nofun rfl rfl
  case sto => exact decode_operand_iff 300 w a nofun rfl rfl
  case lda => exact decode_operand_iff 500 w a nofun rfl rfl
  case bra => exact decode_operand_iff 600 w a nofun rfl rfl
  case brz => exact decode_operand_iff 700 w a nofun rfl rfl
  case brp => exact decode_operand_iff 800 w a nofun rfl rfl
  case inp => rw [decode_ok_iff_of_ne_halt w (by decide), ← BitVec.toInt_inj]; exact and_iff_right rfl
  case outp => rw [decode_ok_iff_of_ne_halt w (by decide), ← BitVec.toInt_inj]; exact and_iff_right rfl

end Sys2Proof

namespace Sys2Proof.Machine

/-! ## The rows of R66 as equations -/

/-- A row of R66 that does not lead to `EXEC` is the whole step. -/
theorem step_of_transition {s t : State} (h : transition s = .next t) (ht : t.ctl ≠ .exec) :
    step s = .next t := by
  simp [step, cycleStep, h, andThen, ht]

/-- The `FETCH` rows outside `CLI` mode (R58). -/
theorem transition_of_fetch {s : State} (h : s.ctl = .fetch) (hm : s.mode ≠ .cli) (hcell : isCell s.pc = true) :
    transition s = .next ((s.latch (s.mem.read s.pc.toNat)).setCtl (afterFetch s.mode)) := by
  rw [← fetch_of_cell s hcell]
  cases hmode : s.mode with
  | cli => exact absurd hmode hm
  | mem | debug => simp [transition, beginCycle, h, hmode]

theorem step_of_debugFetch {s : State} (h : s.ctl = .fetch) (hm : s.mode = .debug) (hcell : isCell s.pc = true) :
    step s = .next ((s.latch (s.mem.read s.pc.toNat)).setCtl .dbgWait) := by
  have ht := transition_of_fetch h (by simp [hm]) hcell
  rw [hm] at ht
  exact step_of_transition ht nofun

theorem step_of_memFetch {s : State} (h : s.ctl = .fetch) (hm : s.mode = .mem) (hcell : isCell s.pc = true) :
    step s = step ((s.latch (s.mem.read s.pc.toNat)).setCtl .exec) := by
  have ht := transition_of_fetch h (by simp [hm]) hcell
  rw [hm] at ht
  exact step_of_transition_exec ht rfl

theorem step_of_cliWord {s : State} {w : Word} {rest : List Word} (h : s.ctl = .cliWait)
    (hi : s.instrIn = w :: rest) : step s = step (((s.setInstrIn rest).latch w).setCtl .exec) :=
  step_of_transition_exec (by simp [transition, takeWord, h, hi]) rfl

theorem step_of_promptHold {s : State} (h : s.ctl = .dbgWait) (hd : s.dbgCmd = []) : step s = .next s :=
  step_of_transition (by simp [transition, debuggerTurn, h, hd]) (by simp [h])

/-- The row of a command given at the prompt (R84 to R88). -/
theorem transition_of_command {s : State} {c : DbgCmd} {rest : List DbgCmd} (h : s.ctl = .dbgWait)
    (hd : s.dbgCmd = c :: rest) : transition s = .next (debuggerCommand c (s.setDbgCmd rest)) := by
  simp [transition, debuggerTurn, h, hd]

theorem step_of_quit {s : State} {rest : List DbgCmd} (h : s.ctl = .dbgWait) (hd : s.dbgCmd = .quit :: rest) :
    step s = .next ((s.setDbgCmd rest).raise .terminated) :=
  step_of_transition (transition_of_command h hd) nofun

theorem step_of_helpOrOther {s : State} {c : DbgCmd} {rest : List DbgCmd} (h : s.ctl = .dbgWait)
    (hd : s.dbgCmd = c :: rest) (hc : c = .help ∨ c = .other) : step s = .next (s.setDbgCmd rest) := by
  have hstay : (s.setDbgCmd rest).ctl ≠ .exec := by simp [h]
  obtain rfl | rfl := hc
  · exact step_of_transition (transition_of_command h hd) hstay
  · exact step_of_transition (transition_of_command h hd) hstay

/-! ## A step runs the decoded instruction (R61 to R65) -/

/-- Settles O4: the step is the execution of the latched word, which is the handler of what it decodes to. -/
theorem stepRunsTheDecodedInstruction : Obligations.StepRunsTheDecodedInstruction := by
  unfold Obligations.StepRunsTheDecodedInstruction
  intro s i
  refine ⟨fun f w h hd => ⟨?memHalt, fun hi hf => ?mem⟩, fun w rest h hd => ⟨?cliHalt, fun hi => ?cli⟩,
    fun c rest h hc hd => ⟨?promptHalt, fun hi hf => ?prompt⟩⟩
  case memHalt => rintro rfl; exact (step_atFetch h).trans (execute_halt _ hd)
  case cliHalt => rintro rfl; exact (step_atCliWord h).trans (execute_halt _ hd)
  case promptHalt => rintro rfl; exact (step_atPrompt h hc).trans (execute_halt _ hd)
  case mem =>
    have hstep := step_atFetch h
    obtain ⟨-, -, rfl, -, -⟩ := h
    exact hstep.trans (execute_dispatch _ hd hi (overflowed_advance_of_le _ hf))
  case cli =>
    have hstep := step_atCliWord h
    obtain ⟨-, hm, -⟩ := h
    exact hstep.trans (execute_dispatch _ hd hi (overflowed_advance_of_cli _ hm))
  case prompt => exact (step_atPrompt h hc).trans (execute_dispatch _ hd hi (overflowed_advance_of_le _ hf))

/-! ## HALT and the overflow check (R62, R64) -/

/-- Settles O14: the halt check comes before the advance in all three modes, and `QUIT` before both. -/
theorem haltEndsTheRunBeforeTheAdvance : Obligations.HaltEndsTheRunBeforeTheAdvance := by
  unfold Obligations.HaltEndsTheRunBeforeTheAdvance
  intro s w h0 h99
  have hd : decode w = .ok .halt := (decode_halt_iff w).2 ⟨h0, h99⟩
  refine ⟨hd, rfl, fun f h => ?mem, fun rest h => ?cli, ?_⟩
  case mem => exact (step_atFetch h).trans (execute_halt _ hd)
  case cli => exact (step_atCliWord h).trans (execute_halt _ hd)
  rintro c rest h rfl
  refine ⟨fun hc => ?resume, ?quit⟩
  case resume => exact (step_atPrompt h hc).trans (execute_halt _ hd)
  case quit =>
    rintro rfl
    obtain ⟨hc, -, -, hcmd⟩ := h
    exact step_of_quit hc hcmd

/-- The overflow check of the `EXEC` state ends a cycle from cell 99 (R64). -/
theorem step_of_reachesExec_last {s e : State} (h : ReachesExec s e) (hm : e.mode ≠ .cli) (hp : e.pc = 99)
    (hd : decode e.ir ≠ .ok .halt) : step s = .next { e with pc := 100, outcome := .overflow, ctl := .done } := by
  have hpc : e.pc + 1 = 100 := by rw [hp]; rfl
  rw [step_of_reachesExec h, execute_overflow e hd (overflowed_advance_of_last e hm hp), ← hpc]
  rfl

/-- No handler raises `OVERFLOW`, and in `CLI` mode the overflow check never fails. -/
theorem execute_outcome_of_cli {s t : State} (hm : s.mode = .cli) (ho : s.outcome ≠ .overflow)
    (h : execute s = .next t) : t.outcome ≠ .overflow := by
  obtain ⟨-, rfl⟩ | ⟨-, hv, -⟩ | ⟨-, -, rfl⟩ | ⟨-, i, u, -, -, hu, rfl⟩ := execute_next h
  · nofun
  · simp [overflowed_advance_of_cli s hm] at hv
  · nofun
  · rw [State.endCycle_outcome]
    obtain ⟨hout, -⟩ | ⟨rfl, -⟩ | ⟨rfl, -⟩ := exec_ends hu
    · rwa [hout]
    · nofun
    · nofun

/-- Settles O16: the check fails at cell 99 outside `CLI` mode, and no row of R66 raises `OVERFLOW` in it. -/
theorem cellNinetyNineOverflows : Obligations.CellNinetyNineOverflows := by
  unfold Obligations.CellNinetyNineOverflows
  refine ⟨fun s w h hd => ?_, fun _ _ => step_of_reachesExec_last, fun s t hm hc ho h => ?_⟩
  · have ⟨_, hm, hp, _, _⟩ := h
    exact step_of_reachesExec_last (.inl ⟨99, w, h, rfl⟩) (by simp [hm]) hp hd
  · obtain ⟨-, rfl⟩ | ⟨-, rfl⟩ | ⟨-, -, rfl⟩ | ⟨w, rest, -, he⟩ | ⟨-, he⟩ := step_next_of_cli hm hc h
    · exact ho
    · exact ho
    · exact ho
    · exact execute_outcome_of_cli (by exact hm) (by exact ho) he
    · exact execute_outcome_of_cli hm ho he

/-! ## The Counter after a cycle (R63, R116) -/

/-- `w` is a branch to cell `a` whose condition holds of the Accumulator `acc` (R77 to R79). -/
def BranchTaken (w acc : Word) (a : Addr) : Prop :=
  isCell a = true ∧
    (decode w = .ok (.bra a) ∨ (decode w = .ok (.brz a) ∧ acc.toInt ≤ 0) ∨
      (decode w = .ok (.brp a) ∧ acc.toInt ≠ 0))

/-- A handler leaves the Counter as it is, but for a branch whose condition holds. -/
theorem exec_pc {w : Word} {i : Instr} {s t : State} (hd : decode w = .ok i) (h : exec i s = .next t) :
    t.pc = s.pc ∨ BranchTaken w s.acc t.pc := by
  obtain ⟨-, rfl⟩ | ⟨a, v, -, -, rfl⟩ | ⟨a, -, -, rfl⟩ | ⟨a, -, -, rfl⟩ | ⟨a, -, -, rfl⟩ |
    ⟨a, hi, ha, -⟩ | ⟨-, -, rfl⟩ | ⟨v, rest, -, -, rfl⟩ | ⟨-, rfl⟩ := exec_next h
  · exact .inl rfl
  · exact .inl rfl
  · exact .inl rfl
  · exact .inl rfl
  · exact .inl rfl
  · obtain rfl | rfl | rfl := hi
    · obtain ⟨-, ⟨-, rfl⟩ | ⟨-, rfl⟩⟩ := branchIf_next h
      · exact .inr ⟨ha, .inl hd⟩
      · exact .inl rfl
    · obtain ⟨-, ⟨hc, rfl⟩ | ⟨-, rfl⟩⟩ := branchIf_next h
      · exact .inr ⟨ha, .inr (.inl ⟨hd, (notPositive_iff _).1 hc⟩)⟩
      · exact .inl rfl
    · obtain ⟨-, ⟨hc, rfl⟩ | ⟨-, rfl⟩⟩ := branchIf_next h
      · exact .inr ⟨ha, .inr (.inr ⟨hd, fun h0 => (notZero_iff _).1 hc (BitVec.eq_of_toInt_eq h0)⟩)⟩
      · exact .inl rfl
  · exact .inl rfl
  · exact .inl rfl
  · exact .inl rfl

/-- A cycle that ends without raising leaves `FPC`, and the Counter advanced or at the target of its branch. -/
theorem execute_pc {s t : State} (h : execute s = .next t) (ht : t.ctl = .fetch) :
    t.fpc = s.fpc ∧ (t.pc = s.pc + 1 ∨ BranchTaken t.ir s.acc t.pc) := by
  have hir := execute_ir h
  obtain ⟨-, rfl⟩ | ⟨-, -, rfl⟩ | ⟨-, -, rfl⟩ | ⟨-, i, u, hd, -, hu, rfl⟩ := execute_next h
  · cases ht
  · cases ht
  · cases ht
  · obtain ⟨-, -, hfpc, -⟩ := exec_frame hu
    rw [hir, State.endCycle_fpc, State.endCycle_pc]
    exact ⟨hfpc, exec_pc hd hu⟩

/-- A step of a sound state that ends a cycle executed a word latched at the Counter. -/
theorem Sound.step_ends_cycle {s t : State} (h : Sound s) (hs : Machine.step s = .next t) (ht : t.ctl = .fetch) :
    ∃ e, Machine.execute e = .next t ∧ e.pc = e.fpc ∧ e.acc = s.acc := by
  obtain ⟨hc, rfl⟩ | ⟨-, -, rfl⟩ | ⟨-, -, -, rfl⟩ | ⟨-, -, -, he⟩ | ⟨hc, -, rfl⟩ | ⟨-, w, rest, -, he⟩ |
    ⟨hc, -, rfl⟩ | ⟨hc, c, rest, -, ⟨-, rfl⟩ | ⟨-, rfl⟩ | ⟨-, he⟩ | ⟨-, he⟩⟩ | ⟨hc, he⟩ := step_next hs
  · simp [hc] at ht
  · cases ht
  · cases ht
  · exact ⟨_, he, rfl, rfl⟩
  · simp [hc] at ht
  · exact ⟨_, he, rfl, rfl⟩
  · simp [hc] at ht
  · simp [hc] at ht
  · cases ht
  · have ⟨_, hpc, _⟩ := h.dbgHold hc
    exact ⟨_, he, hpc, rfl⟩
  · have ⟨_, hpc, _⟩ := h.dbgHold hc
    exact ⟨_, he, hpc, rfl⟩
  · have ⟨hpc, _⟩ := h.latched hc
    exact ⟨_, he, hpc, rfl⟩

/-- Settles O15: the handler keeps the advanced Counter or takes the branch, and the word was latched at the Counter. -/
theorem counterAdvancesOrTakesTheBranch : Obligations.CounterAdvancesOrTakesTheBranch := by
  unfold Obligations.CounterAdvancesOrTakesTheBranch
  intro s t h hs ht
  obtain ⟨e, he, hpc, hacc⟩ := h.step_ends_cycle hs ht
  obtain ⟨hfpc, hadv | hbranch⟩ := execute_pc he ht
  · left
    rw [hadv, hpc, hfpc, BitVec.toNat_add]
    rfl
  · rw [hacc] at hbranch
    exact .inr ⟨t.pc, rfl, hbranch⟩

/-! ## What ADD and SUB do at the limits of a word (R71, R95) -/

theorem exec_add_of_inRange {a : Addr} {s : State} (ha : isCell a = true)
    (hv : InRange (s.acc.toInt + (s.mem.read a.toNat).toInt)) :
    exec (.add a) s = .next (s.setAcc (BitVec.ofInt 32 (s.acc.toInt + (s.mem.read a.toNat).toInt))) := by
  rw [← representable_iff_inRange] at hv
  simp [exec, execAdd, withCell_of_cell _ _ _ ha, accumulate, hv]

theorem exec_add_of_not_inRange {a : Addr} {s : State} (ha : isCell a = true)
    (hv : ¬ InRange (s.acc.toInt + (s.mem.read a.toNat).toInt)) :
    exec (.add a) s = .next (s.raise .arithOverflow) := by
  rw [← representable_iff_inRange] at hv
  simp [exec, execAdd, withCell_of_cell _ _ _ ha, accumulate, hv]

theorem exec_sub_of_inRange {a : Addr} {s : State} (ha : isCell a = true)
    (hv : InRange (s.acc.toInt - (s.mem.read a.toNat).toInt)) :
    exec (.sub a) s = .next (s.setAcc (BitVec.ofInt 32 (s.acc.toInt - (s.mem.read a.toNat).toInt))) := by
  rw [← representable_iff_inRange] at hv
  simp [exec, execSub, withCell_of_cell _ _ _ ha, accumulate, hv]

theorem exec_sub_of_not_inRange {a : Addr} {s : State} (ha : isCell a = true)
    (hv : ¬ InRange (s.acc.toInt - (s.mem.read a.toNat).toInt)) :
    exec (.sub a) s = .next (s.raise .arithOverflow) := by
  rw [← representable_iff_inRange] at hv
  simp [exec, execSub, withCell_of_cell _ _ _ ha, accumulate, hv]

/-- Every well-formed instruction completes in every state (R105). -/
theorem exec_completes {i : Instr} (s : State) (h : i.wf = true) : ∃ t, exec i s = .next t := by
  cases i with
  | halt | outp => exact ⟨_, rfl⟩
  | add a =>
    by_cases hv : InRange (s.acc.toInt + (s.mem.read a.toNat).toInt)
    · exact ⟨_, exec_add_of_inRange h hv⟩
    · exact ⟨_, exec_add_of_not_inRange h hv⟩
  | sub a =>
    by_cases hv : InRange (s.acc.toInt - (s.mem.read a.toNat).toInt)
    · exact ⟨_, exec_sub_of_inRange h hv⟩
    · exact ⟨_, exec_sub_of_not_inRange h hv⟩
  | sto a => exact ⟨_, storeCell_of_cell _ _ _ h⟩
  | lda a => exact ⟨s.setAcc (s.mem.read a.toNat), withCell_of_cell a s (fun m => .next (s.setAcc m)) h⟩
  | bra a | brz a | brp a => exact ⟨_, branchIf_of_cell _ _ _ h⟩
  | inp =>
    cases hin : s.input with
    | nil => exact ⟨s, by simp [exec, execInp, hin]⟩
    | cons v rest => exact ⟨(s.setAcc v).setInput rest, by simp [exec, execInp, hin]⟩

/-- ADD and SUB with a word as result, and every other instruction but HALT, raise nothing. -/
theorem exec_raises_nothing {i : Instr} {s : State} (h : i.wf = true) (hi : i ≠ .halt)
    (hadd : ∀ a, i = .add a → InRange (s.acc.toInt + (s.mem.read a.toNat).toInt))
    (hsub : ∀ a, i = .sub a → InRange (s.acc.toInt - (s.mem.read a.toNat).toInt)) :
    ∃ t, exec i s = .next t ∧ t.ctl = s.ctl := by
  obtain ⟨t, ht⟩ := exec_completes s h
  obtain ⟨-, hc⟩ | ⟨-, hhalt⟩ | ⟨-, a, rfl | rfl⟩ := exec_ends ht
  · exact ⟨t, ht, hc⟩
  · exact absurd hhalt hi
  · exact ⟨_, exec_add_of_inRange h (hadd a rfl), rfl⟩
  · exact ⟨_, exec_sub_of_inRange h (hsub a rfl), rfl⟩

/-! ## The `EXEC` rows of R66 -/

/-- The cycle of a handler that raises nothing (R65). -/
theorem execute_of_exec {s u : State} {i : Instr} (hd : decode s.ir = .ok i) (hi : i ≠ .halt)
    (ho : overflowed s.advance = false) (hu : exec i s.advance = .next u) (hc : u.ctl ≠ .done) :
    execute s = .next (u.setCtl .fetch) := by
  rw [execute_dispatch s hd hi ho, dispatch, hu]
  simp [andThen, State.endCycle, hc]

/-- The cycle of a handler that raises `o` (R65). -/
theorem execute_of_exec_raise {s u : State} {i : Instr} {o : RunOutcome} (hd : decode s.ir = .ok i)
    (hi : i ≠ .halt) (ho : overflowed s.advance = false) (hu : exec i s.advance = .next (u.raise o)) :
    execute s = .next (u.raise o) := by
  rw [execute_dispatch s hd hi ho, dispatch, hu]
  simp [andThen, State.endCycle]

theorem execute_arithOverflow {s : State} {a : Addr} (ho : overflowed s.advance = false)
    (h : decode s.ir = .ok (.add a) ∧ ¬ InRange (s.acc.toInt + (s.mem.read a.toNat).toInt) ∨
      decode s.ir = .ok (.sub a) ∧ ¬ InRange (s.acc.toInt - (s.mem.read a.toNat).toInt)) :
    execute s = .next (s.advance.raise .arithOverflow) := by
  obtain ⟨hd, hv⟩ | ⟨hd, hv⟩ := h
  · exact execute_of_exec_raise hd nofun ho (exec_add_of_not_inRange (s := s.advance) (decode_wf hd) hv)
  · exact execute_of_exec_raise hd nofun ho (exec_sub_of_not_inRange (s := s.advance) (decode_wf hd) hv)

theorem execute_runs_handler {s : State} {i : Instr} (hc : s.ctl = .exec) (ho : overflowed s.advance = false)
    (hd : decode s.ir = .ok i) (hi : i ≠ .halt)
    (hadd : ∀ a, i = .add a → InRange (s.acc.toInt + (s.mem.read a.toNat).toInt))
    (hsub : ∀ a, i = .sub a → InRange (s.acc.toInt - (s.mem.read a.toNat).toInt)) :
    ∃ u, exec i s.advance = .next u ∧ execute s = .next (u.setCtl .fetch) := by
  obtain ⟨u, hu, hcu⟩ := exec_raises_nothing (s := s.advance) (decode_wf hd) hi hadd hsub
  exact ⟨u, hu, execute_of_exec hd hi ho hu (by simp [hcu, hc])⟩

/-- Settles O20: the action of each row by its equation, and where the step leads by the inversion `step_next`. -/
theorem controlStateFollowsItsTable : Obligations.ControlStateFollowsItsTable := by
  unfold Obligations.ControlStateFollowsItsTable
  intro s
  refine ⟨⟨step_of_cliFetch, step_of_debugFetch, step_of_memFetch, fun hc => ?cliWait, fun hc => ?dbgWait,
    fun hc => ?exec, step_of_done⟩, fun t h => ?leads⟩
  case cliWait => exact ⟨step_of_cliHold hc, fun _ _ => step_of_cliWord hc⟩
  case dbgWait =>
    refine ⟨step_of_promptHold hc, fun c rest hd => ⟨?_, ?_, ?_, step_of_helpOrOther hc hd⟩⟩
    · rintro rfl; exact step_of_transition_exec (transition_of_command hc hd) rfl
    · rintro rfl; exact step_of_transition_exec (transition_of_command hc hd) rfl
    · rintro rfl; exact step_of_quit hc hd
  case exec =>
    rw [step_of_exec hc]
    refine ⟨execute_halt s, fun hd hm hp => ?_, fun hadv => ?_⟩
    · exact execute_overflow s hd ((overflowed_iff _).2 ⟨hm, hp⟩)
    have ho := overflowed_advance_of_advanced s hadv
    refine ⟨fun hill => ?_, fun _ => execute_arithOverflow ho, fun _ => execute_runs_handler hc ho⟩
    obtain ⟨e, he⟩ := (decode_error_iff s.ir).2 hill
    exact execute_illegal s he ho
  case leads =>
    obtain ⟨hc, rfl⟩ | ⟨hc, hm, rfl⟩ | ⟨hc, hm, -, rfl⟩ | ⟨hc, hm, -, he⟩ | ⟨hc, hi, rfl⟩ | ⟨hc, w, rest, hi, he⟩ |
      ⟨hc, hd, rfl⟩ | ⟨hc, c, rest, hd, ⟨hh, rfl⟩ | ⟨rfl, rfl⟩ | ⟨rfl, he⟩ | ⟨rfl, he⟩⟩ | ⟨hc, he⟩ := step_next h
    · simp [hc]
    · simp [hc, hm]
    · simp [hc, hm]
    · simp [hc, hm, (execute_ctl he).symm]
    · simp [hc, hi]
    · simp [hc, hi, (execute_ctl he).symm]
    · simp [hc, hd]
    · obtain rfl | rfl := hh <;> simp [hc, hd]
    · simp [hc, hd]
    · simp [hc, hd, (execute_ctl he).symm]
    · simp [hc, hd, (execute_ctl he).symm]
    · simp [hc, (execute_ctl he).symm]

end Sys2Proof.Machine

namespace Sys2Proof.Machine

/-! ## A run in `MEM` mode neither reads nor takes what the host offers (R68) -/

/-- The state with other words and commands offered. -/
def State.withHost (s : State) (ws : List Word) (cs : List DbgCmd) : State := { s with instrIn := ws, dbgCmd := cs }

section
variable (ws : List Word) (cs : List DbgCmd)

theorem State.withHost_input (s : State) : (s.withHost ws cs).input = s.input := rfl
theorem State.withHost_ctl (s : State) : (s.withHost ws cs).ctl = s.ctl := rfl

theorem State.endCycle_withHost (s : State) : (s.withHost ws cs).endCycle = s.endCycle.withHost ws cs := by
  unfold State.endCycle
  rw [State.withHost_ctl]
  split
  · rfl
  · rfl

theorem accumulate_withHost {v : Int} {s t : State} (h : accumulate v s = .next t) :
    accumulate v (s.withHost ws cs) = .next (t.withHost ws cs) := by
  obtain ⟨hv, rfl⟩ | ⟨hv, rfl⟩ := accumulate_next h
  · rw [accumulate, if_pos hv]; rfl
  · rw [accumulate, if_neg (by simp [hv])]; rfl

theorem branchIf_withHost {c : Bool} {a : Addr} {s t : State} (h : branchIf c a s = .next t) :
    branchIf c a (s.withHost ws cs) = .next (t.withHost ws cs) := by
  obtain ⟨ha, ⟨rfl, rfl⟩ | ⟨rfl, rfl⟩⟩ := branchIf_next h
  · exact branchIf_of_cell _ _ _ ha
  · exact branchIf_of_cell _ _ _ ha

/-- No handler reads or writes the host's lists. -/
theorem exec_withHost {i : Instr} {s t : State} (h : exec i s = .next t) :
    exec i (s.withHost ws cs) = .next (t.withHost ws cs) := by
  cases i with
  | halt | outp => cases h; rfl
  | add a =>
    simp only [exec, execAdd] at h ⊢
    obtain ⟨ha, h⟩ := withCell_next h
    exact (withCell_of_cell _ _ _ ha).trans (accumulate_withHost ws cs h)
  | sub a =>
    simp only [exec, execSub] at h ⊢
    obtain ⟨ha, h⟩ := withCell_next h
    exact (withCell_of_cell _ _ _ ha).trans (accumulate_withHost ws cs h)
  | sto a =>
    obtain ⟨ha, rfl⟩ := storeCell_next h
    exact storeCell_of_cell _ _ _ ha
  | lda a =>
    simp only [exec, execLda] at h ⊢
    obtain ⟨ha, h⟩ := withCell_next h
    cases h
    exact withCell_of_cell _ _ _ ha
  | bra a | brz a | brp a => exact branchIf_withHost ws cs h
  | inp =>
    simp only [exec, execInp, State.withHost_input] at h ⊢
    split at h <;> cases h <;> rfl

theorem execute_withHost {s t : State} (h : execute s = .next t) :
    execute (s.withHost ws cs) = .next (t.withHost ws cs) := by
  obtain ⟨hd, rfl⟩ | ⟨hd, ho, rfl⟩ | ⟨ho, ⟨e, hd⟩, rfl⟩ | ⟨ho, i, u, hd, hi, hu, rfl⟩ := execute_next h
  · exact execute_halt _ hd
  · exact execute_overflow _ hd ho
  · exact execute_illegal _ hd ho
  · have hu' : exec i (s.withHost ws cs).advance = .next (u.withHost ws cs) := exec_withHost ws cs hu
    rw [execute_dispatch (s.withHost ws cs) hd hi ho, dispatch, hu', ← State.endCycle_withHost]
    rfl

/-- What a step does in `MEM` mode and in no hold: the rows of `step_next` that are left. -/
theorem step_next_of_mem {s t : State} (hm : s.mode = .mem) (hw : s.ctl ≠ .cliWait) (hp : s.ctl ≠ .dbgWait)
    (h : step s = .next t) :
    (s.ctl = .done ∧ t = s) ∨
    (AtFetch s s.pc (s.mem.read s.pc.toNat) ∧
      execute ((s.latch (s.mem.read s.pc.toNat)).setCtl .exec) = .next t) ∨
    (s.ctl = .exec ∧ execute s = .next t) := by
  have hcli : s.mode ≠ .cli := by simp [hm]
  have hdebug : s.mode ≠ .debug := by simp [hm]
  obtain hd | ⟨-, hn, -⟩ | ⟨-, hn, -⟩ | ⟨hf, -, hcell, he⟩ | ⟨hn, -⟩ | ⟨hn, -⟩ | ⟨hn, -⟩ | ⟨hn, -⟩ | hx :=
    step_next h
  · exact .inl hd
  · exact absurd hn hcli
  · exact absurd hn hdebug
  · exact .inr (.inl ⟨⟨hf, hm, rfl, hcell, rfl⟩, he⟩)
  · exact absurd hn hw
  · exact absurd hn hw
  · exact absurd hn hp
  · exact absurd hn hp
  · exact .inr (.inr hx)

/-- A cycle of a run in `MEM` mode stays in it and ends in no hold. -/
theorem execute_stays_mem {s t : State} (hm : s.mode = .mem) (h : execute s = .next t) :
    t.mode = .mem ∧ t.ctl ≠ .cliWait ∧ t.ctl ≠ .dbgWait := by
  refine ⟨(execute_mode h).trans hm, ?_⟩
  obtain ht | ht := execute_ctl h <;> simp [ht]

theorem step_stays_mem {s t : State} (hm : s.mode = .mem) (hw : s.ctl ≠ .cliWait) (hp : s.ctl ≠ .dbgWait)
    (h : step s = .next t) : t.mode = .mem ∧ t.ctl ≠ .cliWait ∧ t.ctl ≠ .dbgWait := by
  obtain ⟨-, rfl⟩ | ⟨-, he⟩ | ⟨-, he⟩ := step_next_of_mem hm hw hp h
  · exact ⟨hm, hw, hp⟩
  · exact execute_stays_mem (by exact hm) he
  · exact execute_stays_mem hm he

theorem step_withHost {s t : State} (hm : s.mode = .mem) (hw : s.ctl ≠ .cliWait) (hp : s.ctl ≠ .dbgWait)
    (h : step s = .next t) : step (s.withHost ws cs) = .next (t.withHost ws cs) := by
  obtain ⟨hd, rfl⟩ | ⟨hf, he⟩ | ⟨hx, he⟩ := step_next_of_mem hm hw hp h
  · exact step_of_done hd
  · have hf' : AtFetch (s.withHost ws cs) s.pc (s.mem.read s.pc.toNat) := hf
    have he' := execute_withHost ws cs he
    exact (step_atFetch hf').trans he'
  · exact (step_of_exec (by exact hx)).trans (execute_withHost ws cs he)

theorem run_withHost {k : Nat} {s t : State} (hm : s.mode = .mem) (hw : s.ctl ≠ .cliWait) (hp : s.ctl ≠ .dbgWait)
    (h : run k s = .next t) : run k (s.withHost ws cs) = .next (t.withHost ws cs) := by
  induction k generalizing s with
  | zero => cases h; rfl
  | succ k ih =>
    obtain ⟨u, hu, h⟩ := run_succ_next h
    obtain ⟨hmu, hwu, hpu⟩ := step_stays_mem hm hw hp hu
    exact (run_succ_of_step k (step_withHost ws cs hm hw hp hu)).trans (ih hmu hwu hpu h)

end

/-- Settles O40: the run with other offers goes the same way, step by step. -/
theorem memRunIgnoresTheHost : Obligations.MemRunIgnoresTheHost := by
  unfold Obligations.MemRunIgnoresTheHost
  exact fun _ _ _ ws cs hm hw hp h => run_withHost ws cs hm hw hp h

end Sys2Proof.Machine

namespace Sys2Proof.Machine

/-! ## ADD and SUB write the exact result or nothing (R71 to R73) -/

/-- The Accumulator holds an exact result that is a word as it is: no wrap-around, no clamp (R71). -/
theorem State.toInt_setAcc_ofInt (s : State) {v : Int} (hv : InRange v) :
    (s.setAcc (BitVec.ofInt 32 v)).acc.toInt = v :=
  toInt_ofInt v ((representable_iff_inRange v).2 hv)

/-- Settles O5: the two cases of `exec` on ADD, in range and out of range. -/
theorem addWritesTheExactSum : Obligations.AddWritesTheExactSum := by
  unfold Obligations.AddWritesTheExactSum
  intro a s ha
  refine ⟨decode_encode (i := .add a) ha, ?inRange, ?outOfRange⟩
  case inRange =>
    intro hv
    exact ⟨_, exec_add_of_inRange ha hv, s.toInt_setAcc_ofInt hv, rfl, fun _ => rfl⟩
  case outOfRange => exact exec_add_of_not_inRange ha

/-- Settles O6: the two cases of `exec` on SUB, in range and out of range. -/
theorem subWritesTheExactDifference : Obligations.SubWritesTheExactDifference := by
  unfold Obligations.SubWritesTheExactDifference
  intro a s ha
  refine ⟨decode_encode (i := .sub a) ha, ?inRange, ?outOfRange⟩
  case inRange =>
    intro hv
    exact ⟨_, exec_sub_of_inRange ha hv, s.toInt_setAcc_ofInt hv, rfl, fun _ => rfl⟩
  case outOfRange => exact exec_sub_of_not_inRange ha

end Sys2Proof.Machine

namespace Sys2Proof.Machine

/-! ## STO and LDA move the whole word (R74, R75) -/

theorem exec_sto_of_cell {a : Addr} (s : State) (ha : isCell a = true) :
    exec (.sto a) s = .next (s.setMem (s.mem.write a.toNat s.acc)) :=
  storeCell_of_cell a s.acc s ha

theorem exec_lda_of_cell {a : Addr} (s : State) (ha : isCell a = true) :
    exec (.lda a) s = .next (s.setAcc (s.mem.read a.toNat)) :=
  withCell_of_cell a s (fun m => .next (s.setAcc m)) ha

/-- Read after write (R43) for addresses as the Counter and an operand hold them. -/
theorem Mem.read_write_addr (m : Mem) (a b : Addr) (v : Word) :
    (m.write a.toNat v).read b.toNat = if b = a then v else m.read b.toNat := by
  simp only [Mem.read_write, BitVec.toNat_inj]

/-- Settles O7: the stored word is read back by the law of read after write, and a fetch latches what it reads. -/
theorem stoWritesItsCellOnly : Obligations.StoWritesItsCellOnly := by
  unfold Obligations.StoWritesItsCellOnly
  intro a s ha
  refine ⟨decode_stoWord a ha, _, exec_sto_of_cell s ha, ?cells, rfl, ?laterFetch⟩
  case cells => exact fun b => Mem.read_write s.mem a.toNat b s.acc
  case laterFetch =>
    intro b hb
    exact ⟨_, fetch_of_cell _ hb, rfl, Mem.read_write_addr s.mem a b s.acc⟩

/-- Settles O8: the next state of LDA is the old one with the word of the cell in `Acc`. -/
theorem ldaLoadsTheWholeWord : Obligations.LdaLoadsTheWholeWord := by
  unfold Obligations.LdaLoadsTheWholeWord
  intro a s ha
  exact ⟨decode_encode (i := .lda a) ha, _, exec_lda_of_cell s ha, rfl, rfl, fun _ => rfl⟩

end Sys2Proof.Machine

namespace Sys2Proof.Machine

/-! ## BRA, BRZ and BRP write the Counter or nothing (R76 to R79) -/

/-- A branch is a write of the Counter, which rewrites its own value when the condition `P` does not hold (R76). -/
theorem branchIf_eq_setPc {c : Bool} {P : Prop} [Decidable P] {a : Addr} (s : State) (ha : isCell a = true)
    (hc : c = true ↔ P) : branchIf c a s = .next (s.setPc (if P then a else s.pc)) := by
  rw [branchIf_of_cell c a s ha]
  by_cases hP : P
  · rw [if_pos (hc.2 hP), if_pos hP]
  · rw [if_neg (mt hc.1 hP), if_neg hP]; rfl

theorem exec_bra_of_cell {a : Addr} (s : State) (ha : isCell a = true) : exec (.bra a) s = .next (s.setPc a) :=
  branchIf_of_cell true a s ha

theorem exec_brz_of_cell {a : Addr} (s : State) (ha : isCell a = true) :
    exec (.brz a) s = .next (s.setPc (if s.acc.toInt ≤ 0 then a else s.pc)) :=
  branchIf_eq_setPc s ha (notPositive_iff s.acc)

theorem exec_brp_of_cell {a : Addr} (s : State) (ha : isCell a = true) :
    exec (.brp a) s = .next (s.setPc (if s.acc.toInt ≠ 0 then a else s.pc)) :=
  branchIf_eq_setPc s ha ((notZero_iff s.acc).trans BitVec.toInt_inj.symm.not)

/-- A whole `MEM` cycle whose handler writes only the Counter (R58, R63, R65). -/
theorem step_of_exec_setPc {s : State} {f p : Addr} {w : Word} {i : Instr} (h : AtFetch s f w)
    (hf : f.toNat ≤ 98) (hd : decode w = .ok i) (hi : i ≠ .halt)
    (hexec : ∀ e : State, e.acc = s.acc → e.pc = f + 1 → exec i e = .next (e.setPc p)) :
    step s = .next { s with pc := p, ir := w, fpc := f } := by
  have hstep := step_atFetch h
  obtain ⟨hctl, -, rfl, -, -⟩ := h
  rw [hstep, hctl]
  exact execute_of_exec (s := { s with ir := w, fpc := s.pc, ctl := .exec }) hd hi
    (overflowed_advance_of_le _ hf) (hexec _ rfl rfl) nofun

theorem step_of_bra {s : State} {f a : Addr} (ha : isCell a = true)
    (h : AtFetch s f (BitVec.ofNat 32 (600 + a.toNat))) (hf : f.toNat ≤ 98) :
    step s = .next { s with pc := a, ir := BitVec.ofNat 32 (600 + a.toNat), fpc := f } :=
  step_of_exec_setPc h hf (decode_encode (i := .bra a) ha) nofun fun e _ _ => exec_bra_of_cell e ha

/-- Any number of cycles of a branch to its own cell: after the first one the state stays the same. -/
theorem run_of_selfBra {s : State} {a : Addr} (h : AtFetch s a (BitVec.ofNat 32 (600 + a.toNat)))
    (hf : a.toNat ≤ 98) (k : Nat) :
    run (k + 1) s = .next { s with ir := BitVec.ofNat 32 (600 + a.toNat), fpc := a } := by
  have ⟨_, _, hpc, ha, _⟩ := h
  subst hpc
  rw [run_succ_of_step k (step_of_bra ha h hf)]
  exact run_of_fixed (step_of_bra ha (by exact h) hf) k

/-- Settles O9: the cycle writes `pc`, `IR` and `FPC` only, and a branch to its own cell is a fixed point after one. -/
theorem braFetchesNextAtItsTarget : Obligations.BraFetchesNextAtItsTarget := by
  unfold Obligations.BraFetchesNextAtItsTarget
  intro a s ha
  refine ⟨decode_encode (i := .bra a) ha, exec_bra_of_cell s ha, fun f h hf => ?cycle, fun k hf h => ?loop⟩
  case cycle =>
    have hstep := step_of_bra ha h hf
    obtain ⟨hctl, hmode, -, -, -⟩ := h
    exact ⟨_, _, hstep, ⟨hctl, hmode, rfl, ha, rfl⟩, rfl, fetch_of_cell _ ha, rfl⟩
  case loop =>
    cases k with
    | zero => exact ⟨s, run_zero s, h, rfl⟩
    | succ k => exact ⟨_, run_of_selfBra h hf k, h, rfl⟩

/-- Settles O10: the handler's write of `pc`, taken and not taken, by itself and in a cycle. -/
theorem brzBranchesWhenNotPositive : Obligations.BrzBranchesWhenNotPositive := by
  unfold Obligations.BrzBranchesWhenNotPositive
  intro a s ha
  have hd : decode (BitVec.ofNat 32 (700 + a.toNat)) = .ok (.brz a) := decode_encode (i := .brz a) ha
  refine ⟨hd, fun hc => ?taken, fun hc => ?notTaken, fun f h hf => ?cycle⟩
  case taken => rw [exec_brz_of_cell s ha, if_pos hc]; rfl
  case notTaken => rw [exec_brz_of_cell s ha, if_neg (by omega)]; rfl
  case cycle =>
    refine step_of_exec_setPc h hf hd nofun fun e hacc hpc => ?_
    rw [exec_brz_of_cell e ha, hacc, hpc]

/-- Settles O11: the handler's write of `pc`, taken and not taken, by itself and in a cycle. -/
theorem brpBranchesWhenNotZero : Obligations.BrpBranchesWhenNotZero := by
  unfold Obligations.BrpBranchesWhenNotZero
  intro a s ha
  have hd : decode (BitVec.ofNat 32 (800 + a.toNat)) = .ok (.brp a) := decode_encode (i := .brp a) ha
  refine ⟨hd, fun hc => ?taken, fun hc => ?notTaken, fun f h hf => ?cycle⟩
  case taken => rw [exec_brp_of_cell s ha, if_pos hc]; rfl
  case notTaken => rw [exec_brp_of_cell s ha, if_neg (not_not.2 hc)]; rfl
  case cycle =>
    refine step_of_exec_setPc h hf hd nofun fun e hacc hpc => ?_
    rw [exec_brp_of_cell e ha, hacc, hpc]

end Sys2Proof.Machine

namespace Sys2Proof.Machine

/-! ## INP and OUTP (R80, R81) -/

theorem exec_inp_of_cons {s : State} {v : Word} {rest : List Word} (h : s.input = v :: rest) :
    exec .inp s = .next ((s.setAcc v).setInput rest) := by
  simp [exec, execInp, h]

theorem exec_inp_of_nil {s : State} (h : s.input = []) : exec .inp s = .next s := by
  simp [exec, execInp, h]

theorem exec_outp (s : State) : exec .outp s = .next (s.emit s.acc) := rfl

/-- OUTP presents on `out` the one word it appends (R81). -/
theorem presented_emit (s : State) (v : Word) : presented s (s.emit v) = [v] := by
  simp [presented]

/-- A whole `MEM` cycle whose handler answers `u` and raises nothing (R58, R63, R65). -/
theorem step_of_atFetch_exec {s u : State} {f : Addr} {w : Word} {i : Instr} (h : AtFetch s f w) (hf : f.toNat ≤ 98)
    (hd : decode w = .ok i) (hi : i ≠ .halt)
    (hexec : exec i { s with pc := f + 1, ir := w, fpc := f, ctl := .exec } = .next u) (hu : u.ctl ≠ .done) :
    step s = .next (u.setCtl .fetch) := by
  have hstep := step_atFetch h
  obtain ⟨-, -, rfl, -, -⟩ := h
  rw [hstep]
  exact execute_of_exec (s := { s with ir := w, fpc := s.pc, ctl := .exec }) hd hi
    (overflowed_advance_of_le _ hf) hexec hu

/-- Settles O12: the two cases of `Input` in the handler, the empty one also through a whole cycle. -/
theorem inpTakesTheFrontOfInput : Obligations.InpTakesTheFrontOfInput := by
  unfold Obligations.InpTakesTheFrontOfInput
  refine ⟨fun w => ?word, fun s => ⟨fun v rest hin => exec_inp_of_cons hin, exec_inp_of_nil, ?emptyCycle⟩⟩
  case word =>
    obtain ⟨-, -, -, -, -, -, -, -, hinp, -⟩ := everyWordIsOneKindOrIllegal w
    exact hinp
  case emptyCycle =>
    intro hin f h hf
    rw [step_of_atFetch_exec h hf (decode_encode (i := .inp) rfl) nofun (exec_inp_of_nil hin) nofun]
    obtain ⟨hctl, -⟩ := h
    rw [← hctl]; rfl

/-- Settles O13: the handler is one `emit`, and a run only appends to what was emitted. -/
theorem outpEmitsTheAccumulator : Obligations.OutpEmitsTheAccumulator := by
  unfold Obligations.OutpEmitsTheAccumulator
  refine ⟨fun w => ?word, fun s => ⟨_, exec_outp s, rfl, presented_emit s s.acc, ?twice, ?kept⟩⟩
  case word =>
    obtain ⟨-, -, -, -, -, -, -, -, -, houtp, -⟩ := everyWordIsOneKindOrIllegal w
    exact houtp
  case twice => simp [exec_outp, State.emit]
  case kept =>
    intro k u h
    obtain ⟨later, hlater, -⟩ := run_output h
    exact ⟨later, hlater.symm⟩

end Sys2Proof.Machine

namespace Sys2Proof.Machine

/-! ## The commands at a prompt (R83 to R88) -/

/-- What a step does with a command that leads to `EXEC` (R84, R85). -/
theorem step_of_resume {s : State} {c : DbgCmd} {rest : List DbgCmd} (h : s.ctl = .dbgWait)
    (hd : s.dbgCmd = c :: rest) (hc : (debuggerCommand c (s.setDbgCmd rest)).ctl = .exec) :
    step s = step (debuggerCommand c (s.setDbgCmd rest)) :=
  step_of_transition_exec (transition_of_command h hd) hc

/-- The view is presented in every state held at a prompt (R83). -/
theorem State.promptView_of_prompt {s : State} (h : s.ctl = .dbgWait) : s.promptView = some s.view :=
  if_pos h

/-- Settles O23: the row of each command, and the view at every prompt. -/
theorem debuggerCommandsAtThePrompt : Obligations.DebuggerCommandsAtThePrompt := by
  unfold Obligations.DebuggerCommandsAtThePrompt
  rintro s c rest ⟨hc, -, -, hd⟩
  refine ⟨State.promptView_of_prompt hc, fun hh => ⟨step_of_helpOrOther hc hd hh, ?again⟩, ?quit, ?step, ?cont⟩
  case again => exact State.promptView_of_prompt (s := { s with dbgCmd := rest }) hc
  case quit => rintro rfl; exact step_of_quit hc hd
  case step => rintro rfl; exact step_of_resume hc hd rfl
  case cont => rintro rfl; exact step_of_resume hc hd rfl

/-- Settles O27: a cycle keeps the mode, so only a row of R66 can write it, and only the one of `CONT` does. -/
theorem modeChangesOnlyOnContinue : Obligations.ModeChangesOnlyOnContinue := by
  unfold Obligations.ModeChangesOnlyOnContinue
  intro s t hsound h
  obtain ⟨-, rfl⟩ | ⟨-, -, rfl⟩ | ⟨-, -, -, rfl⟩ | ⟨-, -, -, he⟩ | ⟨-, -, rfl⟩ | ⟨-, w, rest, -, he⟩ |
    ⟨-, -, rfl⟩ | ⟨hc, c, rest, hd, ⟨-, rfl⟩ | ⟨-, rfl⟩ | ⟨-, he⟩ | ⟨rfl, he⟩⟩ | ⟨-, he⟩ := step_next h
  · exact .inl rfl
  · exact .inl rfl
  · exact .inl rfl
  · exact .inl (execute_mode he :)
  · exact .inl rfl
  · exact .inl (execute_mode he :)
  · exact .inl rfl
  · exact .inl rfl
  · exact .inl rfl
  · exact .inl (execute_mode he :)
  · obtain ⟨hdebug, -⟩ := hsound.dbgHold hc
    exact .inr ⟨hdebug, execute_mode he, hc, rest, hd⟩
  · exact .inl (execute_mode he :)

/-! ## A cycle goes the same way in `DEBUG` and in `MEM` mode, whatever commands are on offer (R90) -/

/-- The state in another mode with other commands offered: what the debugger sets beside the machine's data. -/
def State.withDebugger (s : State) (m : Mode) (cs : List DbgCmd) : State := { s with mode := m, dbgCmd := cs }

/-- The debugger set as it is: the state in its own mode with its own commands. -/
theorem State.withDebugger_self {s : State} {m : Mode} (h : s.mode = m) : s.withDebugger m s.dbgCmd = s := by
  rw [← h]; rfl

/-- A result with its next state in another mode and with other commands offered. -/
def resultWithDebugger (r : Result) (m : Mode) (cs : List DbgCmd) : Result :=
  andThen r fun t => .next (t.withDebugger m cs)

section
variable (m : Mode) (cs : List DbgCmd)

theorem State.withDebugger_input (s : State) : (s.withDebugger m cs).input = s.input := rfl

theorem State.endCycle_withDebugger (s : State) :
    (s.withDebugger m cs).endCycle = s.endCycle.withDebugger m cs :=
  (apply_ite (State.withDebugger · m cs) (s.ctl = .done) s (s.setCtl .fetch)).symm

theorem accumulate_withDebugger (v : Int) (s : State) :
    accumulate v (s.withDebugger m cs) = resultWithDebugger (accumulate v s) m cs := by
  unfold accumulate
  split
  · rfl
  · rfl

theorem withCell_withDebugger {k k' : Word → Result} (a : Addr) (s : State)
    (hk : ∀ w, k' w = resultWithDebugger (k w) m cs) :
    withCell a (s.withDebugger m cs) k' = resultWithDebugger (withCell a s k) m cs := by
  unfold withCell
  split
  · exact hk _
  · rfl

theorem storeCell_withDebugger (a : Addr) (v : Word) (s : State) :
    storeCell a v (s.withDebugger m cs) = resultWithDebugger (storeCell a v s) m cs := by
  unfold storeCell
  split
  · rfl
  · rfl

theorem branchIf_withDebugger (taken : Bool) (a : Addr) (s : State) :
    branchIf taken a (s.withDebugger m cs) = resultWithDebugger (branchIf taken a s) m cs := by
  unfold branchIf
  split
  · cases taken <;> rfl
  · rfl

theorem execInp_withDebugger (s : State) :
    execInp (s.withDebugger m cs) = resultWithDebugger (execInp s) m cs := by
  unfold execInp
  rw [State.withDebugger_input]
  split
  · rfl
  · rfl

/-- No handler reads or writes the mode or the commands on offer. -/
theorem exec_withDebugger (i : Instr) (s : State) :
    exec i (s.withDebugger m cs) = resultWithDebugger (exec i s) m cs := by
  cases i with
  | halt | outp => rfl
  | add a => exact withCell_withDebugger m cs a s fun w => accumulate_withDebugger m cs (s.acc.toInt + w.toInt) s
  | sub a => exact withCell_withDebugger m cs a s fun w => accumulate_withDebugger m cs (s.acc.toInt - w.toInt) s
  | sto a => exact storeCell_withDebugger m cs a s.acc s
  | lda a => exact withCell_withDebugger m cs (k := fun w => .next (s.setAcc w)) a s fun _ => rfl
  | bra a | brz a | brp a => exact branchIf_withDebugger m cs _ a s
  | inp => exact execInp_withDebugger m cs s

/-- The overflow check reads of the mode only whether it is `CLI` (R64). -/
theorem overflowed_withDebugger {s : State} (hs : s.mode ≠ .cli) (hm : m ≠ .cli) :
    overflowed (s.withDebugger m cs) = overflowed s := by
  simp [overflowed, State.withDebugger, hs, hm]

theorem execute_withDebugger {s t : State} (hs : s.mode ≠ .cli) (hm : m ≠ .cli) (h : execute s = .next t) :
    execute (s.withDebugger m cs) = .next (t.withDebugger m cs) := by
  have hcheck : overflowed (s.withDebugger m cs).advance = overflowed s.advance :=
    overflowed_withDebugger (s := s.advance) m cs hs hm
  obtain ⟨hd, rfl⟩ | ⟨hd, ho, rfl⟩ | ⟨ho, ⟨e, hd⟩, rfl⟩ | ⟨ho, i, u, hd, hi, hu, rfl⟩ := execute_next h
  · exact execute_halt _ hd
  · exact execute_overflow _ hd (hcheck.trans ho)
  · exact execute_illegal _ hd (hcheck.trans ho)
  · have hu' : exec i (s.withDebugger m cs).advance = .next (u.withDebugger m cs) :=
      (exec_withDebugger m cs i s.advance).trans (by rw [hu]; rfl)
    rw [execute_dispatch (s.withDebugger m cs) hd hi (hcheck.trans ho), dispatch, hu',
      ← State.endCycle_withDebugger]
    rfl

end

/-- The row `FETCH` of a step in `MEM` mode. -/
theorem step_next_of_memFetch {s t : State} (hc : s.ctl = .fetch) (hm : s.mode = .mem) (h : step s = .next t) :
    isCell s.pc = true ∧ execute ((s.latch (s.mem.read s.pc.toNat)).setCtl .exec) = .next t := by
  obtain ⟨hn, -⟩ | ⟨⟨-, -, -, hcell, -⟩, he⟩ | ⟨hn, -⟩ :=
    step_next_of_mem hm (by simp [hc]) (by simp [hc]) h
  · simp [hc] at hn
  · exact ⟨hcell, he⟩
  · simp [hc] at hn

theorem execute_dbgCmd {s t : State} (h : execute s = .next t) : t.dbgCmd = s.dbgCmd := by
  obtain ⟨-, rfl⟩ | ⟨-, -, rfl⟩ | ⟨-, -, rfl⟩ | ⟨-, i, u, -, -, hu, rfl⟩ := execute_next h
  · rfl
  · rfl
  · rfl
  · obtain ⟨-, -, -, -, hcmds⟩ := exec_frame hu
    rw [State.endCycle_dbgCmd, hcmds, State.advance_dbgCmd]

theorem run_one (s : State) : run 1 s = step s := by
  rw [run_succ]
  cases step s <;> rfl

/-- Any number of `HELP` and `OTHER` takes as many steps and those commands (R87, R88). -/
theorem run_of_helpOrOther {s : State} {cs rest : List DbgCmd} (h : s.ctl = .dbgWait)
    (hcs : ∀ c ∈ cs, c = .help ∨ c = .other) (hd : s.dbgCmd = cs ++ rest) :
    run cs.length s = .next (s.setDbgCmd rest) := by
  induction cs generalizing s with
  | nil => rw [show rest = s.dbgCmd from hd.symm]; rfl
  | cons c cs ih =>
    obtain ⟨hc, hcs⟩ := List.forall_mem_cons.1 hcs
    have hstep : step s = .next (s.setDbgCmd (cs ++ rest)) := step_of_helpOrOther h hd hc
    exact (run_succ_of_step cs.length hstep).trans (ih (by exact h) hcs rfl)

/-- From a prompt, the commands that keep the hold and then `STEP` or `CONT` lead to the execution of the latched word
(R84, R85). -/
theorem run_fromPrompt {s : State} {c : DbgCmd} {cs rest : List DbgCmd} (h : s.ctl = .dbgWait)
    (hm : s.mode = .debug) (hpc : s.pc = s.fpc) (hcs : ∀ c ∈ cs, c = .help ∨ c = .other)
    (hc : c = .step ∨ c = .cont) (hd : s.dbgCmd = cs ++ c :: rest) :
    run (cs.length + 1) s = execute { s with dbgCmd := rest, mode := modeAfter c, ctl := .exec } := by
  have hprompt : AtPrompt (s.setDbgCmd (c :: rest)) c rest := ⟨h, hm, hpc, rfl⟩
  rw [run_add (run_of_helpOrOther h hcs hd), run_one]
  exact step_atPrompt hprompt hc

/-- A cycle in `MEM` mode, under the debugger: the fetch, the commands that keep the hold, and `STEP` or `CONT`. -/
theorem run_debuggedCycle {s t : State} {c : DbgCmd} {cs rest : List DbgCmd} (hctl : s.ctl = .fetch)
    (hm : s.mode = .mem) (hcs : ∀ c ∈ cs, c = .help ∨ c = .other) (hc : c = .step ∨ c = .cont)
    (h : step s = .next t) :
    run (cs.length + 2) (s.withDebugger .debug (cs ++ c :: rest)) =
      .next (t.withDebugger (modeAfter c) rest) := by
  obtain ⟨hcell, he⟩ := step_next_of_memFetch hctl hm h
  have hfetch := step_of_debugFetch (s := s.withDebugger .debug (cs ++ c :: rest)) hctl rfl hcell
  rw [run_succ_of_step _ hfetch]
  exact (run_fromPrompt rfl rfl rfl hcs hc rfl).trans
    (execute_withDebugger (modeAfter c) rest (by simp [hm]) (modeAfter_ne_cli c) he)

/-- Settles O25: `run_debuggedCycle` for both commands, from the state in `MEM` mode. -/
theorem debuggedCycleEqualsMemCycle : Obligations.DebuggedCycleEqualsMemCycle := by
  unfold Obligations.DebuggedCycleEqualsMemCycle
  intro s u cs rest hctl hm hcs h
  obtain ⟨-, he⟩ := step_next_of_memFetch (s := { s with mode := .mem, dbgCmd := rest }) hctl rfl h
  have hmode : u.mode = .mem := execute_mode he
  have hcmds : u.dbgCmd = rest := execute_dbgCmd he
  have hcycle (c : DbgCmd) (hc : c = .step ∨ c = .cont) :
      run (cs.length + 2) { s with dbgCmd := cs ++ c :: rest } = .next (u.withDebugger (modeAfter c) u.dbgCmd) := by
    rw [hcmds, ← run_debuggedCycle (s := { s with mode := .mem, dbgCmd := rest }) hctl rfl hcs hc h]
    exact congrArg (run _) (State.withDebugger_self (s := { s with dbgCmd := cs ++ c :: rest }) hm).symm
  exact ⟨hcycle .step (.inl rfl),
    (hcycle .cont (.inr rfl)).trans (congrArg Host.Outcome.next (State.withDebugger_self hmode))⟩

/-! ## A single-stepped run -/

/-- A run in `MEM` mode, under the debugger with a `STEP` for each cycle. -/
theorem run_singleStepped {n : Nat} {s t : State} (hctl : s.ctl = .fetch) (hm : s.mode = .mem)
    (h : run n s = .next t) :
    ∃ left, run (2 * n) (s.withDebugger .debug (List.replicate n .step)) = .next (t.withDebugger .debug left) := by
  induction n generalizing s with
  | zero => cases h; exact ⟨[], rfl⟩
  | succ n ih =>
    obtain ⟨u, hu, h⟩ := run_succ_next h
    obtain ⟨-, he⟩ := step_next_of_memFetch hctl hm hu
    have hcycle : run 2 (s.withDebugger .debug (List.replicate (n + 1) .step)) =
        .next (u.withDebugger .debug (List.replicate n .step)) :=
      run_debuggedCycle (cs := []) hctl hm nofun (.inl rfl) hu
    rw [Nat.mul_succ, Nat.add_comm, run_add hcycle]
    obtain hdone | hfetch := execute_ctl he
    · have htu : Host.Outcome.next u = .next t := (run_of_fixed (step_of_done hdone) n).symm.trans h
      cases htu
      exact ⟨_, run_of_fixed (step_of_done (by exact hdone)) (2 * n)⟩
    · exact ih hfetch ((execute_mode he).trans hm) h

/-- Settles O26: `run_singleStepped` from the state in `MEM` mode with no command on offer. -/
theorem singleSteppedRunRefinesMemRun : Obligations.SingleSteppedRunRefinesMemRun := by
  unfold Obligations.SingleSteppedRunRefinesMemRun
  intro n s u hctl hm hd h
  obtain ⟨left, hrun⟩ := run_singleStepped (s := { s with mode := .mem, dbgCmd := [] }) hctl rfl h
  have hs : State.withDebugger { s with mode := .mem, dbgCmd := [] } .debug s.dbgCmd = s := State.withDebugger_self hm
  rw [← hd, hs] at hrun
  exact ⟨left, hrun⟩

end Sys2Proof.Machine

namespace Sys2Proof.Machine

/-! ## An ill-formed term faults (R40) -/

theorem withCell_of_not_cell {a : Addr} (s : State) (k : Word → Result) (h : isCell a = false) :
    withCell a s k = .fault (.noSuchCell a.toNat) := by simp [withCell, h]

theorem storeCell_of_not_cell {a : Addr} (v : Word) (s : State) (h : isCell a = false) :
    storeCell a v s = .fault (.noSuchCell a.toNat) := by simp [storeCell, h]

theorem branchIf_of_not_cell (c : Bool) {a : Addr} (s : State) (h : isCell a = false) :
    branchIf c a s = .fault (.noSuchCell a.toNat) := by simp [branchIf, h]

/-- An ill-formed instruction faults in every state, on the operand that names no cell. -/
theorem exec_faults {i : Instr} (s : State) (h : i.wf = false) :
    ∃ a : Addr, isCell a = false ∧ exec i s = .fault (.noSuchCell a.toNat) := by
  cases i with
  | halt | inp | outp => cases h
  | add a => exact ⟨a, h, withCell_of_not_cell s (fun m => accumulate (s.acc.toInt + m.toInt) s) h⟩
  | sub a => exact ⟨a, h, withCell_of_not_cell s (fun m => accumulate (s.acc.toInt - m.toInt) s) h⟩
  | lda a => exact ⟨a, h, withCell_of_not_cell s (fun m => .next (s.setAcc m)) h⟩
  | sto a => exact ⟨a, h, storeCell_of_not_cell _ s h⟩
  | bra a | brz a | brp a => exact ⟨a, h, branchIf_of_not_cell _ s h⟩

/-- Settles O37: `exec_completes` on a well-formed instruction, `exec_faults` on any other. -/
theorem handlersCompleteOnWellFormed : Obligations.HandlersCompleteOnWellFormed := by
  unfold Obligations.HandlersCompleteOnWellFormed
  refine fun i s => ⟨exec_completes s, fun h => ?_⟩
  obtain ⟨a, ha, hfault⟩ := exec_faults s h
  exact ⟨a.toNat, (isCell_false_iff a).1 ha, hfault⟩

/-! ## The end of a run: nothing after it, and `QUIT` (R93, R96) -/

/-- Settles O21: a state with `ctl` = `DONE` steps to itself, and offers do not write `ctl`. -/
theorem endedRunStaysAsItIs : Obligations.EndedRunStaysAsItIs := by
  unfold Obligations.EndedRunStaysAsItIs
  intro k s ws cs hdone
  have hoffered : ((s.offerWords ws).offerCmds cs).ctl = .done := hdone
  exact run_of_fixed (step_of_done hoffered) k

/-- From a prompt, the commands that keep the hold and then `QUIT` end the run (R86 to R88). -/
theorem run_quitFromPrompt {s : State} {cs rest : List DbgCmd} (h : s.ctl = .dbgWait)
    (hcs : ∀ c ∈ cs, c = .help ∨ c = .other) (hd : s.dbgCmd = cs ++ .quit :: rest) :
    run (cs.length + 1) s = .next ((s.setDbgCmd rest).raise .terminated) := by
  rw [run_add (run_of_helpOrOther h hcs hd), run_one]
  exact step_of_quit h rfl

/-- Settles O24: the fetch to the prompt, and then `run_quitFromPrompt`. -/
theorem quitTerminatesUnexecuted : Obligations.QuitTerminatesUnexecuted := by
  unfold Obligations.QuitTerminatesUnexecuted
  rintro s f cs rest hctl hmode rfl hcell hcs hd
  rw [run_succ_of_step _ (step_of_debugFetch hctl hmode hcell)]
  exact run_quitFromPrompt rfl hcs hd

/-! ## What a state that reaches `EXEC` keeps (R58 to R60) -/

theorem ReachesExec.sameData {s e : State} (h : ReachesExec s e) : SameData s e := by
  obtain ⟨_, _, -, rfl⟩ | ⟨_, _, -, rfl⟩ | ⟨_, _, -, -, rfl⟩ := h <;> exact ⟨rfl, rfl, rfl, rfl⟩

/-- The word is latched at the Counter, and nothing is raised on the way. -/
theorem ReachesExec.latched {s e : State} (h : ReachesExec s e) :
    e.ctl = .exec ∧ e.outcome = s.outcome ∧ e.pc = s.pc ∧ e.fpc = s.pc := by
  obtain ⟨_, _, ⟨-, -, hpc, -⟩, rfl⟩ | ⟨_, _, -, rfl⟩ | ⟨_, _, ⟨-, -, hpc, -⟩, -, rfl⟩ := h
  · exact ⟨rfl, rfl, rfl, hpc.symm⟩
  · exact ⟨rfl, rfl, rfl, rfl⟩
  · exact ⟨rfl, rfl, rfl, hpc.symm⟩

/-- The debugger may change the mode, but not from or to `CLI`. -/
theorem ReachesExec.mode_cli_iff {s e : State} (h : ReachesExec s e) : e.mode = .cli ↔ s.mode = .cli := by
  obtain ⟨_, _, -, rfl⟩ | ⟨_, _, -, rfl⟩ | ⟨c, _, ⟨-, hmode, -⟩, -, rfl⟩ := h
  · exact Iff.rfl
  · exact Iff.rfl
  · exact iff_of_false (modeAfter_ne_cli c) (by simp [hmode])

/-! ## An illegal word at the dispatch (R94) -/

/-- The overflow check passes in `CLI` mode, and at every fetch address below 99 (R64). -/
theorem overflowed_advance_of_cli_or_le {s : State} (h : s.mode = .cli ∨ s.pc.toNat ≤ 98) :
    overflowed s.advance = false :=
  h.elim (overflowed_advance_of_cli s) (overflowed_advance_of_le s)

theorem execute_of_isIllegal {s : State} (h : IsIllegal s.ir) (ho : overflowed s.advance = false) :
    execute s = .next (s.advance.raise .illegalInstruction) := by
  obtain ⟨x, hx⟩ := (decode_error_iff s.ir).2 h
  exact execute_illegal s hx ho

theorem step_of_reachesExec_illegal {s e : State} (h : ReachesExec s e) (hill : IsIllegal e.ir)
    (hadv : e.mode = .cli ∨ e.pc.toNat ≤ 98) :
    step s = .next { e with pc := e.pc + 1, outcome := .illegalInstruction, ctl := .done } :=
  (step_of_reachesExec h).trans (execute_of_isIllegal hill (overflowed_advance_of_cli_or_le hadv))

/-- Settles O17: the dispatch of an illegal word in any mode, and its case of a fetch from memory. -/
theorem illegalWordEndsTheRun : Obligations.IllegalWordEndsTheRun := by
  unfold Obligations.IllegalWordEndsTheRun
  refine ⟨fun s f w hill h hf => ?memCycle, fun _ _ => step_of_reachesExec_illegal⟩
  have hreach : ReachesExec s { s with ir := w, fpc := f, ctl := .exec } := .inl ⟨f, w, h, rfl⟩
  obtain ⟨-, -, rfl, -, -⟩ := h
  exact step_of_reachesExec_illegal hreach hill (.inr hf)

/-! ## ADD and SUB out of range, and nothing else, raise `ARITH_OVERFLOW` (R95) -/

/-- `w` is an ADD or SUB of cell `a` whose exact result on the data of `s` is no word (R95). -/
def ResultOutOfRange (w : Word) (s : State) (a : Addr) : Prop :=
  (decode w = .ok (.add a) ∧ ¬ InRange (s.acc.toInt + (s.mem.read a.toNat).toInt)) ∨
    (decode w = .ok (.sub a) ∧ ¬ InRange (s.acc.toInt - (s.mem.read a.toNat).toInt))

theorem ResultOutOfRange.congr {w : Word} {s e : State} {a : Addr} (h : SameData s e) :
    ResultOutOfRange w e a ↔ ResultOutOfRange w s a := by
  obtain ⟨hacc, hmem, -, -⟩ := h
  simp only [ResultOutOfRange, hacc, hmem]

/-- The same by the word's value: 100 and 200 are the words of ADD and SUB with operand 0 (R55). -/
theorem resultOutOfRange_of_toInt {w : Word} {s : State} {a : Addr} (ha : isCell a = true)
    (h : w.toInt = 100 + a.toNat ∧ ¬ InRange (s.acc.toInt + (s.mem.read a.toNat).toInt) ∨
      w.toInt = 200 + a.toNat ∧ ¬ InRange (s.acc.toInt - (s.mem.read a.toNat).toInt)) :
    ResultOutOfRange w s a := by
  obtain ⟨-, hadd, hsub, -⟩ := everyWordIsOneKindOrIllegal w
  obtain ⟨hw, hv⟩ | ⟨hw, hv⟩ := h
  · exact .inl ⟨(hadd a).2 ⟨ha, hw⟩, hv⟩
  · exact .inr ⟨(hsub a).2 ⟨ha, hw⟩, hv⟩

/-- A handler that keeps `ctl` out of `DONE` keeps the outcome. -/
theorem exec_outcome_of_not_done {i : Instr} {s t : State} (h : exec i s = .next t) (hc : t.ctl ≠ .done) :
    t.outcome = s.outcome := by
  obtain ⟨ho, -⟩ | ⟨rfl, -⟩ | ⟨rfl, -⟩ := exec_ends h
  · exact ho
  · exact absurd rfl hc
  · exact absurd rfl hc

/-- The handler that raises `ARITH_OVERFLOW` is that of an ADD or SUB with no word as its result. -/
theorem exec_raises_arithOverflow {w : Word} {i : Instr} {s t : State} (hd : decode w = .ok i)
    (h : exec i s = .next t) (hs : s.outcome ≠ .arithOverflow) (ht : t.outcome = .arithOverflow) :
    ∃ a, ResultOutOfRange w s a := by
  have hwf := decode_wf hd
  obtain ⟨ho, -⟩ | ⟨rfl, -⟩ | ⟨-, a, rfl | rfl⟩ := exec_ends h
  · exact absurd (ho.symm.trans ht) hs
  · cases ht
  · refine ⟨a, .inl ⟨hd, fun hv => hs ?_⟩⟩
    cases h.symm.trans (exec_add_of_inRange hwf hv)
    exact ht
  · refine ⟨a, .inr ⟨hd, fun hv => hs ?_⟩⟩
    cases h.symm.trans (exec_sub_of_inRange hwf hv)
    exact ht

theorem execute_raises_arithOverflow {s t : State} (h : execute s = .next t)
    (hs : s.outcome ≠ .arithOverflow) (ht : t.outcome = .arithOverflow) : ∃ a, ResultOutOfRange t.ir s a := by
  have hir := execute_ir h
  obtain ⟨-, rfl⟩ | ⟨-, -, rfl⟩ | ⟨-, -, rfl⟩ | ⟨-, i, u, hd, -, hu, rfl⟩ := execute_next h
  · cases ht
  · cases ht
  · cases ht
  · rw [hir]
    rw [State.endCycle_outcome] at ht
    exact exec_raises_arithOverflow (s := s.advance) hd hu hs ht

/-- Where the outcome of a step comes from: it is kept, it is that of `QUIT`, or the cycle's execution gives it. -/
theorem step_outcome {s t : State} (h : step s = .next t) :
    t.outcome = s.outcome ∨ t.outcome = .terminated ∨
      ∃ e, execute e = .next t ∧ SameData s e ∧ e.outcome = s.outcome := by
  obtain ⟨-, rfl⟩ | ⟨-, -, rfl⟩ | ⟨-, -, -, rfl⟩ | ⟨-, -, -, he⟩ | ⟨-, -, rfl⟩ | ⟨-, w, rest, -, he⟩ |
    ⟨-, -, rfl⟩ | ⟨-, c, rest, -, ⟨-, rfl⟩ | ⟨-, rfl⟩ | ⟨-, he⟩ | ⟨-, he⟩⟩ | ⟨-, he⟩ := step_next h
  · exact .inl rfl
  · exact .inl rfl
  · exact .inl rfl
  · exact .inr (.inr ⟨_, he, ⟨rfl, rfl, rfl, rfl⟩, rfl⟩)
  · exact .inl rfl
  · exact .inr (.inr ⟨_, he, ⟨rfl, rfl, rfl, rfl⟩, rfl⟩)
  · exact .inl rfl
  · exact .inl rfl
  · exact .inr (.inl rfl)
  · exact .inr (.inr ⟨_, he, ⟨rfl, rfl, rfl, rfl⟩, rfl⟩)
  · exact .inr (.inr ⟨_, he, ⟨rfl, rfl, rfl, rfl⟩, rfl⟩)
  · exact .inr (.inr ⟨_, he, ⟨rfl, rfl, rfl, rfl⟩, rfl⟩)

/-- Settles O18: ADD and SUB out of range raise it by `execute_arithOverflow`, and by `step_outcome` a step that raises
it executed such a word. -/
theorem arithOverflowEndsTheRun : Obligations.ArithOverflowEndsTheRun := by
  unfold Obligations.ArithOverflowEndsTheRun
  refine ⟨fun s e a h ha hadv hv => ?raises, fun s t h hs ht => ?only⟩
  case raises =>
    have hover := (ResultOutOfRange.congr h.sameData).2 (resultOutOfRange_of_toInt ha hv)
    obtain ⟨-, -, -, hfpc⟩ := h.latched
    exact ⟨(step_of_reachesExec h).trans (execute_arithOverflow (overflowed_advance_of_cli_or_le hadv) hover),
      hfpc, h.sameData⟩
  case only =>
    obtain hkept | hquit | ⟨e, he, hdata, hout⟩ := step_outcome h
    · exact absurd (hkept.symm.trans ht) hs
    · cases hquit.symm.trans ht
    · obtain ⟨a, ha⟩ := execute_raises_arithOverflow he (hout ▸ hs) ht
      exact ⟨a, (ResultOutOfRange.congr hdata).1 ha⟩

/-! ## The order of the outcomes in a cycle (R101) -/

/-- Steps 3 to 7 of a cycle complete in every state: the decoder gives well-formed instructions only (R105). -/
theorem execute_completes (s : State) : ∃ t, execute s = .next t := by
  by_cases hhalt : decode s.ir = .ok .halt
  · exact ⟨_, execute_halt s hhalt⟩
  cases ho : overflowed s.advance with
  | true => exact ⟨_, execute_overflow s hhalt ho⟩
  | false =>
    cases hd : decode s.ir with
    | error x => exact ⟨_, execute_illegal s hd ho⟩
    | ok i =>
      obtain ⟨u, hu⟩ := exec_completes s.advance (decode_wf hd)
      have hi : i ≠ .halt := by rintro rfl; exact hhalt hd
      exact ⟨u.endCycle, by rw [execute_dispatch s hd hi ho, dispatch, hu]; rfl⟩

/-- A legal word but HALT that passes the overflow check, with a word as its result if it is an ADD or SUB, keeps the
outcome and leads to `FETCH`. -/
theorem execute_raises_nothing {s : State} (hc : s.ctl = .exec) (ho : overflowed s.advance = false)
    (hhalt : decode s.ir ≠ .ok .halt) (hill : ¬ IsIllegal s.ir)
    (hadd : ∀ a, decode s.ir = .ok (.add a) → InRange (s.acc.toInt + (s.mem.read a.toNat).toInt))
    (hsub : ∀ a, decode s.ir = .ok (.sub a) → InRange (s.acc.toInt - (s.mem.read a.toNat).toInt)) :
    ∃ t, execute s = .next t ∧ t.outcome = s.outcome ∧ t.ctl = .fetch := by
  cases hd : decode s.ir with
  | error x => exact absurd ((decode_error_iff s.ir).1 ⟨x, hd⟩) hill
  | ok i =>
    have hi : i ≠ .halt := by rintro rfl; exact hhalt hd
    obtain ⟨u, hu, hcu⟩ := exec_raises_nothing (s := s.advance) (decode_wf hd) hi
      (by rintro a rfl; exact hadd a hd) (by rintro a rfl; exact hsub a hd)
    have hdone : u.ctl ≠ .done := by simp [hcu, hc]
    have hout : u.outcome = s.outcome := exec_outcome_of_not_done (s := s.advance) hu hdone
    exact ⟨u.setCtl .fetch, execute_of_exec hd hi ho hu hdone, hout, rfl⟩

/-- A Counter that is no more than 99 and not 99 is below 99. -/
theorem cli_or_le_of_ne_last {m : Mode} {p : Addr} (hp : m = .cli ∨ p.toNat ≤ 99) (hne : m = .cli ∨ p ≠ 99) :
    m = .cli ∨ p.toNat ≤ 98 := by
  obtain hm | hne := hne
  · exact .inl hm
  · exact hp.imp_right fun hle => by bv_omega

/-- Settles O19: a cycle completes with one next state, and each clause names it by the equation of its case. -/
theorem firstOutcomeInCycleOrderWins : Obligations.FirstOutcomeInCycleOrderWins := by
  unfold Obligations.FirstOutcomeInCycleOrderWins
  refine ⟨fun s rest h => ?quit, fun s e h hrun hp => ?_⟩
  case quit =>
    obtain ⟨hc, -, -, hd⟩ := h
    exact ⟨_, step_of_quit hc hd, rfl⟩
  obtain ⟨hctl, hout, hpc, -⟩ := h.latched
  obtain ⟨hacc, hmem, -, -⟩ := h.sameData
  rw [step_of_reachesExec h]
  rw [← h.mode_cli_iff, ← hpc] at hp
  simp only [← h.mode_cli_iff, ne_eq, ← hpc, ← hacc, ← hmem]
  have hpasses (hne : e.mode = .cli ∨ e.pc ≠ 99) : overflowed e.advance = false :=
    overflowed_advance_of_cli_or_le (cli_or_le_of_ne_last hp hne)
  obtain ⟨t, ht⟩ := execute_completes e
  have ht_eq {u : State} (hu : execute e = .next u) : t = u := Host.Outcome.next.inj (ht.symm.trans hu)
  refine ⟨t, ht, fun hhalt => ?halted, fun hhalt hm hlast => ?overflow, fun hill hne => ?illegal,
    fun hne a hover => ?arith, fun hne hhalt hill hadd hsub => ?none⟩
  case halted => rw [ht_eq (execute_halt e hhalt)]; rfl
  case overflow => rw [ht_eq (execute_overflow e hhalt (overflowed_advance_of_last e hm hlast))]; rfl
  case illegal => rw [ht_eq (execute_of_isIllegal hill (hpasses hne))]; rfl
  case arith => rw [ht_eq (execute_arithOverflow (hpasses hne) hover)]; rfl
  case none =>
    obtain ⟨u, hu, houtcome, hfetch⟩ := execute_raises_nothing hctl (hpasses hne) hhalt hill hadd hsub
    rw [ht_eq hu]
    exact ⟨houtcome.trans (hout.trans hrun), hfetch⟩

end Sys2Proof.Machine

namespace Sys2Proof.Machine

/-! ## Reset and the two holds (R59, R82, R110, R121) -/

/-- Settles O29: reset is the state that the load of no program and no Input in `MEM` mode gives. -/
theorem resetIsSound : Obligations.ResetIsSound := by
  unfold Obligations.ResetIsSound
  exact loadedState_sound (prog := []) [] .mem (Nat.zero_le 100)

/-- Settles O22: in a hold with nothing delivered a state steps to itself. -/
theorem holdsChangeNothing : Obligations.HoldsChangeNothing := by
  unfold Obligations.HoldsChangeNothing
  rintro k s (⟨hcli, hnone⟩ | ⟨hdbg, hnone⟩)
  · exact run_of_fixed (step_of_cliHold hcli hnone) k
  · exact run_of_fixed (step_of_promptHold hdbg hnone) k

/-! ## A sound state always steps: the only fault is a fetch where there is no cell (R38, R40, R121) -/

/-- Every row of R66 has a next state where a fetch from memory finds a cell. -/
theorem transition_completes {s : State} (hcell : s.ctl = .fetch → s.mode ≠ .cli → isCell s.pc = true) :
    ∃ t, transition s = .next t := by
  cases hc : s.ctl with
  | fetch =>
    by_cases hm : s.mode = .cli
    · exact ⟨s.setCtl .cliWait, by simp [transition, beginCycle, hc, hm]⟩
    · exact ⟨_, transition_of_fetch hc hm (hcell hc hm)⟩
  | cliWait => exact ⟨takeWord s, by simp [transition, hc]⟩
  | dbgWait => exact ⟨debuggerTurn s, by simp [transition, hc]⟩
  | exec =>
    obtain ⟨t, ht⟩ := execute_completes s
    exact ⟨t, by simp [transition, hc, ht]⟩
  | done => exact ⟨s, by simp [transition, hc]⟩

/-- A step completes when its row of R66 does, since the execution that may follow always completes. -/
theorem step_completes_of_transition {s e : State} (h : transition s = .next e) : ∃ t, step s = .next t := by
  by_cases he : e.ctl = .exec
  · rw [step_of_transition_exec h he, step_of_exec he]
    exact execute_completes e
  · exact ⟨e, step_of_transition h he⟩

theorem Sound.isCell_pc {s : State} (h : Sound s) (hc : s.ctl ≠ .done) (hm : s.mode ≠ .cli) :
    isCell s.pc = true :=
  (isCell_iff s.pc).2 (Nat.lt_succ_of_le (h.pc_le hc hm))

theorem Sound.step_completes {s : State} (h : Sound s) : ∃ t, Machine.step s = .next t := by
  obtain ⟨_, he⟩ := transition_completes fun hc hm => h.isCell_pc (by simp [hc]) hm
  exact step_completes_of_transition he

/-- Settles O31: a sound state fetches from a cell (`Sound.isCell_pc`), and nothing else in a step can fault. -/
theorem soundStateAlwaysSteps : Obligations.SoundStateAlwaysSteps := by
  unfold Obligations.SoundStateAlwaysSteps
  exact fun _ h => h.step_completes

/-! ## A run from a sound state never stops (R67, R121) -/

theorem Sound.run_completes {s : State} (h : Sound s) (k : Nat) : ∃ t, run k s = .next t ∧ Sound t := by
  induction k generalizing s with
  | zero => exact ⟨s, rfl, h⟩
  | succ k ih =>
    obtain ⟨u, hu⟩ := h.step_completes
    rw [run_succ_of_step k hu]
    exact ih (h.step hu)

/-- Settles O32: a load gives a sound state, offers keep it sound, and so does every step of the run. -/
theorem loadedRunsNeverStop : Obligations.LoadedRunsNeverStop := by
  unfold Obligations.LoadedRunsNeverStop
  intro k prog inputs c s ws cs hload
  have hloaded : Sound s := loadedStateIsSound prog inputs c s hload
  have hoffered : Sound ((s.offerWords ws).offerCmds cs) := (hloaded.setInstrIn _).setDbgCmd _
  exact hoffered.run_completes k

end Sys2Proof.Machine

namespace Sys2Proof

/-! ## The rejections of the decoder by name (R49, R53), and the vectors of section 2.1 -/

theorem decode_of_negative {w : Word} (h : w.toInt < 0) : decode w = .error .negative := if_pos h

theorem decode_of_aboveRange {w : Word} (h : 999 < w.toInt) : decode w = .error .aboveRange :=
  (if_neg (by omega)).trans (if_pos h)

theorem decode_of_opcodeFour {n : Nat} (h : n / 100 = 4) :
    decode (BitVec.ofNat 32 n) = .error .opcodeFour := by
  rw [decode_ofNat n (by omega)]
  simp [decodeDigits, h]

theorem decode_of_unknownKey {n : Nat} (h : n / 100 = 9) (hin : n ≠ 901) (hout : n ≠ 902) :
    decode (BitVec.ofNat 32 n) = .error .unknownKey := by
  rw [decode_ofNat n (by omega)]
  simp [decodeDigits, decodeNine, h, hin, hout]

/-- Settles O3: the halt words by `decode_halt_iff`, every other legal word as the canonical word of its instruction,
and each rejected word by the lemma of its rejection. -/
theorem specVectorsDecode : Obligations.SpecVectorsDecode := by
  unfold Obligations.SpecVectorsDecode
  have canonical (i : Instr) (h : i.wf = true) : decode (encode i) = .ok i := decode_encode h
  exact ⟨(decode_halt_iff 0).2 (by decide), (decode_halt_iff 17).2 (by decide), (decode_halt_iff 99).2 (by decide),
    canonical (.add 0) rfl, canonical (.add 99) rfl, canonical (.sub 18) rfl,
    canonical (.sto 99) rfl, canonical (.lda 0) rfl, canonical (.lda 99) rfl,
    canonical (.bra 0) rfl, canonical (.brz 0) rfl, canonical (.brp 0) rfl,
    canonical (.brp 99) rfl, canonical .inp rfl, canonical .outp rfl,
    decode_of_opcodeFour (n := 400) rfl, decode_of_opcodeFour (n := 499) rfl,
    decode_of_unknownKey (n := 900) rfl (by decide) (by decide),
    decode_of_unknownKey (n := 903) rfl (by decide) (by decide),
    decode_of_unknownKey (n := 950) rfl (by decide) (by decide),
    decode_of_unknownKey (n := 999) rfl (by decide) (by decide),
    decode_of_negative (by decide), decode_of_negative (by decide),
    decode_of_aboveRange (by decide), decode_of_aboveRange (by decide)⟩

end Sys2Proof
